-- ==== Sys2Proof/Word.lean ====
section
/-!
DEFINITION. The word types of the model: byte, 16-bit packed element, 64-bit register, 512-bit vector register.
-/

namespace Sys2Proof

/-- A byte of memory or of an instruction (10_state R33). -/
abbrev Byte := BitVec 8

/-- A packed element: the spec's "word", 16 bits (00_scope R15). -/
abbrev Elem := BitVec 16

/-- A general register, the instruction pointer, or a linear address: 64 bits (10_state R27, R28, R33). -/
abbrev Word := BitVec 64

/-- A vector register: 512 bits (10_state R25). -/
abbrev Vec := BitVec 512

end Sys2Proof
end

