-- ==== Sys2Proof/Config.lean ====
section
/-!
DEFINITION. What the spec calls parameters of the step relation (00_scope R11, 10_state R35): the constant MAX_KL,
the free value of a data read, and the types of the launch's configuration, which is plain data so that it can be held in State.
-/

namespace Sys2Proof

/-- `MAX_KL`, the width of an opmask register (00_scope R11, 10_state R21; log 3). -/
abbrev Config.maxKl : Nat := 64

/-- An opmask register (10_state R20, R21). -/
abbrev Mask := BitVec Config.maxKl

/-- FREE VALUE (20_memory R55, R62; 93 U13; log 7). What `ReadOracle(history, addr)` returns: no body, so nothing
can be proved of it. -/
opaque Config.readOracle (history : Nat) (addr : Word) : Byte

/-- Processor modes (00_scope R8, R11; 10_state R31). The model gives a meaning to `bits64` only (log 2). -/
inductive Mode where
  | bits64 | bits32 | realAddress | virtual8086
deriving DecidableEq, Repr

/-- `IMM8_RESERVED_POLICY` (30_encoding R106). -/
inductive Imm8Policy where
  | refuse | ignore
deriving DecidableEq, Repr

/-- Which `ReadOracle` answers the data reads of a run (20_memory R62): the launch memory, which is exact when no other
agent writes the data, or the unconstrained oracle. -/
inductive ReadSource where
  | launchMemory | oracle
deriving DecidableEq, Repr

/-- The `kind` of a `MemAdmit` request (20_memory R58). -/
inductive AccessKind where
  | fetch | read
deriving DecidableEq, Repr

/-- The default segment of a data access: the stack segment when the base register is RSP or RBP (30_encoding R92). -/
inductive Segment where
  | stack | other
deriving DecidableEq, Repr

/-- The `info` of `raise #PF(info)`: error code and faulting linear address, both as the launch gives them
(60_exceptions R177). The spec gives the code no width: 32 bits are the family's (PRESUMED, log 28). -/
structure PfInfo where
  code   : BitVec 32
  linear : Word
deriving DecidableEq, Repr

/-- What `MemAdmit` answers (20_memory R56, R58, R60). `device` and `outsideText` are the two requests that are
refused and not faulted. -/
inductive AdmitAnswer where
  | ok
  | gp
  | ss
  | pf (info : PfInfo)
  | device
  | outsideText
deriving DecidableEq, Repr

/-- One `MemAdmit` request (20_memory R58). `seg` and `offset` say what a table that mirrors the chip needs besides (log 4): the
default segment of the access, which decides between #SS and #GP (R59), and how many bytes of the access come before `addr`,
which says whether the access has run over the top of the address space on its way there (R67). -/
structure Request where
  addr : Word
  n    : Nat
  kind : AccessKind
  seg  : Segment
  offset : Nat
deriving DecidableEq, Repr

/-- The requests a rule speaks of: every request that touches a byte of a range, one request exactly, or every request with a
byte that its access reaches over the top of the address space (20_memory R67). -/
inductive Span where
  | touching (base size : Nat)
  | exactly (base size : Nat)
  | wrapping
deriving DecidableEq, Repr

/-- One line of the launch's `MemAdmit` table. `seg = none` means either segment. -/
structure AdmitRule where
  span   : Span
  kind   : AccessKind
  seg    : Option Segment
  answer : AdmitAnswer
deriving DecidableEq, Repr

/-- `MemAdmit` as plain data: the first rule that applies answers, else the default of the kind (log 4). -/
structure AdmitTable where
  rules        : List AdmitRule
  fetchDefault : AdmitAnswer
  readDefault  : AdmitAnswer
deriving DecidableEq, Repr

/-- The configuration of a launch, fixed for a run (00_scope R11, 10_state R31, R32, R35; log 1). -/
structure Launch where
  hasAvx512bw     : Bool
  hasAvx512vl     : Bool
  hasAvx10_1      : Bool
  osAvx512Enabled : Bool
  cr0Ts           : Bool
  mode            : Mode
  imm8Policy      : Imm8Policy
  /-- `MASKED_FAULT_SUPPRESSION` (20_memory R61). -/
  suppressMasked  : Bool
  admits           : AdmitTable
  readSource      : ReadSource
deriving DecidableEq, Repr

end Sys2Proof
end

