-- ==== Sys2Proof/Syntax.lean ====
section
/-!
DEFINITION. The syntax: vector lengths, operand forms, the six instructions of spec/opcode_table.json, and the names of
what a byte string can be other than an instruction in scope.
-/

namespace Sys2Proof

/-- Vector lengths VL = 128, 256, 512 (00_scope R10). -/
inductive VL where
  | v128 | v256 | v512
deriving DecidableEq, Repr

/-- A displacement as it is encoded, before the scaling of 30_encoding R93. -/
inductive Disp where
  | none
  | d8 (d : BitVec 8)
  | d32 (d : BitVec 32)
deriving DecidableEq, Repr

/-- The memory forms of the second source (30_encoding R91, R94). An index is `none` where SIB selects no index; the scale
is kept also then (R105). -/
inductive MemOp where
  | base (b : Fin 16) (d : Disp)
  | ripRel (d : BitVec 32)
  | sib (b : Fin 16) (ix : Option (Fin 16)) (scale : Fin 4) (d : Disp)
  | sibNoBase (ix : Option (Fin 16)) (scale : Fin 4) (d : BitVec 32)
deriving DecidableEq, Repr

/-- The second source: `reg s2` or `mem EA-recipe` (30_encoding R99). -/
inductive Src2 where
  | reg (s2 : Fin 32)
  | mem (m : MemOp)
deriving DecidableEq, Repr

/-- The operands every form has (30_encoding R86, R90, R95): destination opmask, writemask selector (0 = no writemask),
first source, second source, immediate. -/
structure Operands where
  kd   : Fin 8
  kw   : Fin 8
  s1   : Fin 32
  src2 : Src2
  imm8 : BitVec 8
deriving DecidableEq, Repr

/-- The six forms (30_encoding R97). -/
inductive Instr where
  /-- `VPCMPW k1 {k2}, xmm2, xmm3/m128, imm8` (R136) -/
  | vpcmpwXmm (o : Operands)
  /-- `VPCMPW k1 {k2}, ymm2, ymm3/m256, imm8` (R137) -/
  | vpcmpwYmm (o : Operands)
  /-- `VPCMPW k1 {k2}, zmm2, zmm3/m512, imm8` (R138) -/
  | vpcmpwZmm (o : Operands)
  /-- `VPCMPUW k1 {k2}, xmm2, xmm3/m128, imm8` (R139) -/
  | vpcmpuwXmm (o : Operands)
  /-- `VPCMPUW k1 {k2}, ymm2, ymm3/m256, imm8` (R140) -/
  | vpcmpuwYmm (o : Operands)
  /-- `VPCMPUW k1 {k2}, zmm2, zmm3/m512, imm8` (R141) -/
  | vpcmpuwZmm (o : Operands)
deriving DecidableEq, Repr

/-- The causes of #UD (60_exceptions R173, lettered as there). -/
inductive UdCause where
  /-- (a) opmask and ZMM state not enabled -/
  | osDisabled
  /-- (b) the CPUID expression of the form is false -/
  | cpuid
  /-- (c) EVEX.z = 1 (30_encoding R100) -/
  | evexZ
  /-- (d) EVEX.b = 1 (30_encoding R101) -/
  | evexB
  /-- (e) EVEX.L'L = 11b (30_encoding R102) -/
  | evexLL
  /-- (f) stored EVEX.R = 0 or EVEX.R' = 0 (30_encoding R103) -/
  | destination
  /-- (g) LOCK, 66H, F2H, F3H or REX immediately before the EVEX prefix (30_encoding R110; log 14) -/
  | legacyPrefix
deriving DecidableEq, Repr

/-- Why the decoder gives a byte string no meaning (60_exceptions R187). -/
inductive DecodeRefusal where
  /-- a segment-override or address-size prefix comes first (30_encoding R111) -/
  | legacyPrefix
  /-- the first byte is not 62H (30_encoding R112) -/
  | firstByte
  /-- P0 bit 3 is 1 or P1 bit 2 is 0 (30_encoding R104) -/
  | fixedBits
  /-- mmm is not 011b (30_encoding R112) -/
  | otherMap
  /-- W is 0 (30_encoding R112) -/
  | otherW
  /-- pp is not 01b (30_encoding R112) -/
  | otherPp
  /-- the opcode byte is neither 3EH nor 3FH (30_encoding R112) -/
  | otherOpcode
  /-- stored X = 0 in a memory form without SIB (30_encoding R105) -/
  | xWithoutSib
  /-- the bytes given to the decoder end inside the instruction; the machine's own fetch never gives so few -/
  | truncated
deriving DecidableEq, Repr

end Sys2Proof
end

