-- ==== Sys2Proof/WellFormed.lean ====
section
/-!
DEFINITION. Which instructions of the syntax the encoding can spell (30_encoding R91).
-/

namespace Sys2Proof

/-- A base without SIB cannot be number 4 or 12: `rm = 100b` calls for a SIB byte (R91). -/
def baseNeedsNoSib (b : Fin 16) : Bool := b.val % 8 != 4

/-- With `mod = 00b` the base field 101b means something else (RIP-relative, or no base), so a base 5 or 13 carries a
displacement (R91). -/
def dispAllowed (b : Fin 16) (d : Disp) : Bool := !(d == .none && b.val % 8 == 5)

/-- Index number 4 means "no index" (R91). -/
def indexAllowed (ix : Option (Fin 16)) : Bool := ix != some 4

def MemOp.wellFormed : MemOp → Bool
  | .base b d => baseNeedsNoSib b && dispAllowed b d
  | .ripRel _ => true
  | .sib b ix _ d => indexAllowed ix && dispAllowed b d
  | .sibNoBase ix _ _ => indexAllowed ix

def Src2.wellFormed : Src2 → Bool
  | .reg _ => true
  | .mem m => m.wellFormed

def Instr.wellFormed : Instr → Bool
  | .vpcmpwXmm o => o.src2.wellFormed
  | .vpcmpwYmm o => o.src2.wellFormed
  | .vpcmpwZmm o => o.src2.wellFormed
  | .vpcmpuwXmm o => o.src2.wellFormed
  | .vpcmpuwYmm o => o.src2.wellFormed
  | .vpcmpuwZmm o => o.src2.wellFormed

end Sys2Proof
end

