-- ==== Sys2Proof/Decode.lean ====
section
/-!
DEFINITION. From bytes to an instruction, a #UD or a refusal by name (30_encoding R80 to R112), and the encoder written
from the same tables. Forms and lengths stand here too.
-/

namespace Sys2Proof

/-- VL in bits (00_scope R10). -/
def VL.bits : VL → Nat
  | .v128 => 128
  | .v256 => 256
  | .v512 => 512

/-- KL, the number of elements (00_scope R10). -/
def VL.lanes : VL → Nat
  | .v128 => 8
  | .v256 => 16
  | .v512 => 32

/-- VL in bytes: the size of `m128`, `m256`, `m512`, and the disp8 scale N (20_memory R53, 30_encoding R93). -/
def VL.bytes : VL → Nat
  | .v128 => 16
  | .v256 => 32
  | .v512 => 64

/-- A row of the forms table: signedness (the mnemonic) and vector length (30_encoding R97). -/
structure Form where
  signed : Bool
  vl     : VL
deriving DecidableEq, Repr

def Instr.form : Instr → Form
  | .vpcmpwXmm _ => ⟨true, .v128⟩
  | .vpcmpwYmm _ => ⟨true, .v256⟩
  | .vpcmpwZmm _ => ⟨true, .v512⟩
  | .vpcmpuwXmm _ => ⟨false, .v128⟩
  | .vpcmpuwYmm _ => ⟨false, .v256⟩
  | .vpcmpuwZmm _ => ⟨false, .v512⟩

def Instr.operands : Instr → Operands
  | .vpcmpwXmm o => o
  | .vpcmpwYmm o => o
  | .vpcmpwZmm o => o
  | .vpcmpuwXmm o => o
  | .vpcmpuwYmm o => o
  | .vpcmpuwZmm o => o

/-- The instruction of a form. -/
def Form.instr (f : Form) (o : Operands) : Instr :=
  match f.signed, f.vl with
  | true, .v128 => .vpcmpwXmm o
  | true, .v256 => .vpcmpwYmm o
  | true, .v512 => .vpcmpwZmm o
  | false, .v128 => .vpcmpuwXmm o
  | false, .v256 => .vpcmpuwYmm o
  | false, .v512 => .vpcmpuwZmm o

/-! ### Lengths (30_encoding R81) -/

/-- Bytes of a displacement. -/
def Disp.size : Disp → Nat
  | .none => 0
  | .d8 _ => 1
  | .d32 _ => 4

/-- Bytes after ModRM and before imm8: SIB and displacement. -/
def Src2.extraBytes : Src2 → Nat
  | .reg _ => 0
  | .mem (.base _ d) => d.size
  | .mem (.ripRel _) => 4
  | .mem (.sib _ _ _ d) => 1 + d.size
  | .mem (.sibNoBase _ _ _) => 5

/-- The length L of a form with these operands. -/
def Operands.length (o : Operands) : Nat := 7 + o.src2.extraBytes

def Instr.length (i : Instr) : Nat := i.operands.length

/-! ### Fields -/

/-- Bits `lo + w - 1 .. lo` of a byte (00_scope R12). -/
def field (b : Byte) (lo w : Nat) : BitVec w := b.extractLsb' lo w

/-- The logical value of a bit that is stored inverted (30_encoding R83). -/
def inv (b : Byte) (i : Nat) : Nat := if b.getLsbD i then 0 else 1

/-- What the decoder holds once ModRM is read: signedness from the opcode byte, P0, P1, P2, ModRM (R83, R84). -/
structure Head where
  signed : Bool
  p0 : Byte
  p1 : Byte
  p2 : Byte
  modrm : Byte
deriving DecidableEq, Repr

def Head.mod (h : Head) : BitVec 2 := field h.modrm 6 2
def Head.rm (h : Head) : BitVec 3 := field h.modrm 0 3

/-- Destination number (R87). -/
def Head.kd (h : Head) : Fin 8 := Fin.ofNat 8 (field h.modrm 3 3).toNat

/-- Writemask selector (R90). -/
def Head.kw (h : Head) : Fin 8 := Fin.ofNat 8 (field h.p2 0 3).toNat

/-- First source number (R88). -/
def Head.s1 (h : Head) : Fin 32 := Fin.ofNat 32 (16 * inv h.p2 3 + (15 - (field h.p1 3 4).toNat))

/-- Second source register number (R89). -/
def Head.s2 (h : Head) : Fin 32 := Fin.ofNat 32 (16 * inv h.p0 6 + 8 * inv h.p0 5 + h.rm.toNat)

/-- Base register number from a 3-bit field, ModRM.rm or SIB.base (R91). -/
def Head.baseReg (h : Head) (f : BitVec 3) : Fin 16 := Fin.ofNat 16 (8 * inv h.p0 5 + f.toNat)

/-- Index register from SIB.index; number 4 is "no index" (R91). -/
def Head.indexReg (h : Head) (f : BitVec 3) : Option (Fin 16) :=
  let ix : Fin 16 := Fin.ofNat 16 (8 * inv h.p0 6 + f.toNat)
  if ix = 4 then none else some ix

/-- VL from L'L (R82, R102). -/
def vlOfLL (ll : BitVec 2) : Option VL :=
  if ll = 0 then some .v128 else if ll = 1 then some .v256 else if ll = 2 then some .v512 else none

/-! ### The decoder -/

/-- The decoder's answer (R99) with the number of bytes it has consumed to give it: for an instruction, its length. -/
inductive Decoded where
  | instr (i : Instr) (n : Nat)
  | ud (c : UdCause) (n : Nat)
  | refuse (r : DecodeRefusal) (n : Nat)
deriving DecidableEq, Repr

def Decoded.consumed : Decoded → Nat
  | .instr _ n => n
  | .ud _ n => n
  | .refuse _ n => n

/-- The #UD conditions of a selected row (R100 to R103), then the ignored-X refusal (R105), else the instruction.
`xUnused` says that the form is a memory form without SIB. -/
def Head.build (h : Head) (src : Src2) (xUnused : Bool) (imm : Byte) (n : Nat) : Decoded :=
  if h.p2.getLsbD 7 then .ud .evexZ n
  else if h.p2.getLsbD 4 then .ud .evexB n
  else match vlOfLL (field h.p2 5 2) with
    | none => .ud .evexLL n
    | some vl =>
      if !(h.p0.getLsbD 7 && h.p0.getLsbD 4) then .ud .destination n
      else if xUnused && !h.p0.getLsbD 6 then .refuse .xWithoutSib n
      else .instr (Form.instr ⟨h.signed, vl⟩ ⟨h.kd, h.kw, h.s1, src, imm⟩) n

/-- The last byte, imm8 (R80, R95); `n` bytes come before it. -/
def Head.finish (h : Head) (src : Src2) (xUnused : Bool) (n : Nat) : List Byte → Decoded
  | [] => .refuse .truncated n
  | imm :: _ => h.build src xUnused imm (n + 1)

/-- A 32-bit displacement, little-endian (R91, 20_memory R50), then imm8; `n` bytes come before. -/
def Head.disp32 (h : Head) (mk : BitVec 32 → MemOp) (xUnused : Bool) (n : Nat) : List Byte → Decoded
  | d0 :: d1 :: d2 :: d3 :: r => h.finish (.mem (mk (d3 ++ d2 ++ d1 ++ d0))) xUnused (n + 4) r
  | _ => .refuse .truncated n

/-- The displacement by ModRM.mod = 00b, 01b, 10b (R91), then imm8; `n` bytes come before. -/
def Head.dispByMod (h : Head) (mk : Disp → MemOp) (xUnused : Bool) (n : Nat) (bs : List Byte) : Decoded :=
  if h.mod = 0 then h.finish (.mem (mk .none)) xUnused n bs
  else if h.mod = 1 then
    match bs with
    | d :: r => h.finish (.mem (mk (.d8 d))) xUnused (n + 1) r
    | [] => .refuse .truncated n
  else h.disp32 (fun d => mk (.d32 d)) xUnused n bs

/-- The memory forms with a SIB byte (R85, R91). -/
def Head.sibForms (h : Head) : List Byte → Decoded
  | [] => .refuse .truncated 6
  | sib :: r =>
    let scale : Fin 4 := Fin.ofNat 4 (field sib 6 2).toNat
    let ix := h.indexReg (field sib 3 3)
    if h.mod = 0 ∧ field sib 0 3 = 5 then h.disp32 (.sibNoBase ix scale) false 7 r
    else h.dispByMod (.sib (h.baseReg (field sib 0 3)) ix scale) false 7 r

/-- Everything after ModRM (R89, R91, R94, R96). -/
def Head.afterModrm (h : Head) (bs : List Byte) : Decoded :=
  if h.mod = 3 then h.finish (.reg h.s2) false 6 bs
  else if h.rm = 4 then h.sibForms bs
  else if h.mod = 0 ∧ h.rm = 5 then h.disp32 .ripRel true 6 bs
  else h.dispByMod (.base (h.baseReg h.rm)) true 6 bs

/-- What P0 says against every row of the table: the fixed 0 (R104), then mmm (R112). -/
def p0Defect (p0 : Byte) : Option DecodeRefusal :=
  if p0.getLsbD 3 then some .fixedBits else if field p0 0 3 ≠ 3 then some .otherMap else none

/-- What P1 says against every row of the table: the fixed 1 (R104), then W and pp (R112). -/
def p1Defect (p1 : Byte) : Option DecodeRefusal :=
  if !p1.getLsbD 2 then some .fixedBits
  else if !p1.getLsbD 7 then some .otherW
  else if field p1 0 2 ≠ 1 then some .otherPp else none

/-- The opcode byte: 3FH is VPCMPW (signed), 3EH is VPCMPUW (R80, R97). -/
def opcodeSigned (op : Byte) : Option Bool :=
  if op = 0x3F then some true else if op = 0x3E then some false else none

/-- The bytes after 62H. -/
def decodeEvex : List Byte → Decoded
  | [] => .refuse .truncated 1
  | p0 :: r0 =>
    match p0Defect p0, r0 with
    | some d, _ => .refuse d 2
    | none, [] => .refuse .truncated 2
    | none, p1 :: r1 =>
      match p1Defect p1, r1 with
      | some d, _ => .refuse d 3
      | none, p2 :: op :: r2 =>
        match opcodeSigned op, r2 with
        | none, _ => .refuse .otherOpcode 5
        | some _, [] => .refuse .truncated 5
        | some sg, m :: r3 => Head.afterModrm ⟨sg, p0, p1, p2, m⟩ r3
      | none, _ => .refuse .truncated 3

/-- LOCK, operand-size, repeat and REX prefixes: #UD immediately before EVEX (R110). -/
def isUdPrefix (b : Byte) : Bool :=
  b == 0xF0 || b == 0x66 || b == 0xF2 || b == 0xF3 || field b 4 4 == 4

/-- Segment-override and address-size prefixes: accepted by the chip, refused by the model (R111). -/
def isOtherPrefix (b : Byte) : Bool :=
  b == 0x26 || b == 0x2E || b == 0x36 || b == 0x3E || b == 0x64 || b == 0x65 || b == 0x67

/-- A first byte other than 62H (R110, R111, R112). -/
def decodeOther (b0 : Byte) (r : List Byte) : Decoded :=
  if isUdPrefix b0 then
    match r with
    | [] => .refuse .truncated 1
    | b1 :: _ => if b1 = 0x62 then .ud .legacyPrefix 2 else .refuse .firstByte 2
  else if isOtherPrefix b0 then .refuse .legacyPrefix 1
  else .refuse .firstByte 1

/-- The decoder, total on byte strings (R99). -/
def decode : List Byte → Decoded
  | [] => .refuse .truncated 0
  | b0 :: r => if b0 = 0x62 then decodeEvex r else decodeOther b0 r

/-- The length of the longest instruction in scope (R81). -/
def maxLength : Nat := 12

/-- The instruction the decoder reads from `nbits` bits numbered as spec/opcode_table.json numbers them, every byte above
them 0. -/
def tableBytes (nbits w : Nat) : List Byte :=
  (List.range maxLength).map fun j => if j < nbits / 8 then BitVec.ofNat 8 (w / 256 ^ j) else 0

def decodeTableWord (nbits w : Nat) : Option Instr :=
  match decode (tableBytes nbits w) with
  | .instr i _ => some i
  | _ => none

/-! ### The table of rows (R97, R98) -/

/-- The opcode byte of a form. -/
def Form.opcode (f : Form) : Byte := if f.signed then 0x3F else 0x3E

/-- L'L of a vector length (R82). -/
def VL.ll : VL → Nat
  | .v128 => 0
  | .v256 => 1
  | .v512 => 2

/-- `mask` of every row over B0 .. B4. -/
def rowMask : List Byte := [0xFF, 0x0F, 0x87, 0xF0, 0xFF]

/-- `match` of a row over B0 .. B4. -/
def Form.rowMatch (f : Form) : List Byte := [0x62, 0x03, 0x85, BitVec.ofNat 8 (32 * f.vl.ll), f.opcode]

/-- `(B0..B4 AND mask) = match`. -/
def Form.selects (f : Form) (bs : List Byte) : Bool :=
  (bs.take 5).zipWith (fun b m => b &&& m) rowMask == f.rowMatch

/-! ### The encoder -/

/-- The logical X extension bit (R89, R91): 0 where the form does not use it. -/
def indexNumber (ix : Option (Fin 16)) : Nat := (ix.getD 4).val

def Src2.xBit : Src2 → Nat
  | .reg s2 => s2.val / 16
  | .mem (.base _ _) => 0
  | .mem (.ripRel _) => 0
  | .mem (.sib _ ix _ _) => indexNumber ix / 8
  | .mem (.sibNoBase ix _ _) => indexNumber ix / 8

/-- The logical B extension bit (R89, R91): 0 where the form does not use it. -/
def Src2.bBit : Src2 → Nat
  | .reg s2 => s2.val / 8 % 2
  | .mem (.base b _) => b.val / 8
  | .mem (.ripRel _) => 0
  | .mem (.sib b _ _ _) => b.val / 8
  | .mem (.sibNoBase _ _ _) => 0

/-- P0: stored R = 1, X, B, R' = 1, 0, mmm = 011b (R83). -/
def encP0 (x b : Nat) : Byte := BitVec.ofNat 8 (0x93 + 64 * (1 - x) + 32 * (1 - b))

/-- P1: W = 1, vvvv, 1, pp = 01b (R83, R88). -/
def encP1 (s1 : Fin 32) : Byte := BitVec.ofNat 8 (0x85 + 8 * (15 - s1.val % 16))

/-- P2: z = 0, L'L, b = 0, V', aaa (R83, R88, R90). -/
def encP2 (vl : VL) (s1 : Fin 32) (kw : Fin 8) : Byte :=
  BitVec.ofNat 8 (32 * vl.ll + 8 * (1 - s1.val / 16) + kw.val)

/-- ModRM (R84), and SIB, which has the same three fields (R85). -/
def encFields (hi mid lo : Nat) : Byte := BitVec.ofNat 8 (64 * hi + 8 * mid + lo)

/-- Four bytes, little-endian. -/
def le32 (d : BitVec 32) : List Byte :=
  [d.extractLsb' 0 8, d.extractLsb' 8 8, d.extractLsb' 16 8, d.extractLsb' 24 8]

/-- ModRM.mod for a displacement size (R91). -/
def Disp.mod : Disp → Nat
  | .none => 0
  | .d8 _ => 1
  | .d32 _ => 2

def Disp.encode : Disp → List Byte
  | .none => []
  | .d8 d => [d]
  | .d32 d => le32 d

/-- ModRM, SIB and displacement (R89, R91, R94). -/
def Src2.encode (kd : Fin 8) : Src2 → List Byte
  | .reg s2 => [encFields 3 kd (s2.val % 8)]
  | .mem (.base b d) => encFields d.mod kd (b.val % 8) :: d.encode
  | .mem (.ripRel d) => encFields 0 kd 5 :: le32 d
  | .mem (.sib b ix sc d) => encFields d.mod kd 4 :: encFields sc (indexNumber ix % 8) (b.val % 8) :: d.encode
  | .mem (.sibNoBase ix sc d) => encFields 0 kd 4 :: encFields sc (indexNumber ix % 8) 5 :: le32 d

/-- The bytes of an instruction, written from R80 to R91. -/
def Form.encode (f : Form) (o : Operands) : List Byte :=
  [0x62, encP0 o.src2.xBit o.src2.bBit, encP1 o.s1, encP2 f.vl o.s1 o.kw, f.opcode]
    ++ o.src2.encode o.kd ++ [o.imm8]

def encode (i : Instr) : List Byte := i.form.encode i.operands

end Sys2Proof
end

