-- ==== Sys2Proof/Machine/State.lean ====
section
/-!
DEFINITION. The state of the machine, its stop reasons, and the state after reset (10_state R20 to R36, 60_exceptions
R172, R186, R187, 70_reset_and_hazards R210, R211).
-/

namespace Sys2Proof.Machine

/-- A fault is the terminal outcome `fault(kind, rip, info)` (60_exceptions R185, R186): `rip` is the address of the
faulting instruction. Raised by fetching, by the decoder's verdict and by every form's meaning. Stopping here is SAFE: the
chip would enter a handler, which no rule describes. -/
inductive Fault where
  /-- #UD, vector 6 (R173). Raised by the decoder's verdict and by the checks of every form. Safe: terminal. -/
  | ud (rip : Word) (cause : UdCause)
  /-- #NM, vector 7 (R174). Raised by the checks of every form when CR0.TS is set. Safe: terminal. -/
  | nm (rip : Word)
  /-- #SS(0), vector 12 (R175). Raised by a memory form (or a fetch) when MemAdmit answers it. Safe: terminal. -/
  | ss (rip : Word)
  /-- #GP(0), vector 13 (R176). Raised by a memory form or a fetch when MemAdmit answers it. Safe: terminal. -/
  | gp (rip : Word)
  /-- #PF(info), vector 14 (R177). Raised by a memory form or a fetch when MemAdmit answers it. Safe: terminal. -/
  | pf (rip : Word) (info : PfInfo)
deriving DecidableEq, Repr

/-- A refusal: the model gives the byte string or the access no meaning (60_exceptions R187). All are SAFE: the chip may go
on, and the model claims nothing. -/
inductive Refusal where
  /-- An instruction with no meaning yet; raised by exec's arms only. Safe. -/
  | notModelled (mnemonic : String)
  /-- Raised by fetching: the bytes select no form in scope, or carry a bit or a prefix that the model refuses (R104, R105,
  R111, R112). Safe. -/
  | encoding (why : DecodeRefusal)
  /-- Raised by every form when imm8[7:3] is not 0 and IMM8_RESERVED_POLICY is `refuse` (R106). Safe. -/
  | reservedImm8
  /-- Raised by a memory form when MemAdmit says the read falls in device memory (20_memory R56); by fetching too, should a
  table answer a fetch so, a case the spec does not name (DESIGN CHOICE, log 4). Safe. -/
  | deviceMemory
  /-- Raised by fetching when MemAdmit says the bytes lie outside the declared program text (20_memory R60); by a memory form
  too, should a table answer a read so, a case the spec does not name (DESIGN CHOICE, log 4). Safe. -/
  | outsideText
  /-- Raised by fetching when rip + L would reach the top of the 64-bit space: rip never wraps (10_state R28). Safe. -/
  | ripWouldWrap
  /-- Raised by fetching and by every form in a mode other than 64-bit mode (00_scope R8, 93 U10). Safe. -/
  | mode (m : Mode)
deriving DecidableEq, Repr

/-- The machine's state. `cfg` is the launch's configuration, which the spec keeps outside the state and which no step
changes (10_state R35; log 1). `draws` is the model's own: it stands for the `history` of ReadOracle (20_memory R62; log 8). -/
structure State where
  /-- opmask registers k0 to k7 (10_state R20, R21) -/
  k : Vector Mask 8
  /-- vector registers (10_state R25) -/
  v : Vector Vec 32
  /-- general registers (10_state R27) -/
  g : Vector Word 16
  /-- instruction pointer (10_state R28) -/
  rip : Word
  /-- EFLAGS: read and written by no form (10_state R29; log 12) -/
  eflags : BitVec 32
  /-- MXCSR: read and written by no form (10_state R30; log 12) -/
  mxcsr : BitVec 32
  /-- memory, in canonical form (10_state R33; log 11) -/
  mem : List Host.Cell
  cfg : Launch
  draws : Nat
deriving DecidableEq, Repr

/-- The configuration after reset: 95_test_vectors' stated default (log 10); mode, immediate policy and masked-fault
suppression have the values 00_scope R11 gives. -/
def defaultLaunch : Launch where
  hasAvx512bw := true
  hasAvx512vl := true
  hasAvx10_1 := true
  osAvx512Enabled := true
  cr0Ts := false
  mode := .bits64
  imm8Policy := .refuse
  suppressMasked := false
  admits := ⟨[], .ok, .ok⟩
  readSource := .launchMemory

/-- The machine right after reset. The spec gives no reset value (10_state R36): the registers take the family's, from the
note R211 (PRESUMED, log 9); the configuration is log 10; memory lists nothing (log 11). -/
def State.reset : State where
  k := Vector.replicate 8 0
  v := Vector.replicate 32 0
  g := Vector.replicate 16 0
  rip := 0xFFFFFFF0
  eflags := 0x00000002
  mxcsr := 0x00001F80
  mem := []
  cfg := defaultLaunch
  draws := 0

end Sys2Proof.Machine
end

