-- ==== Sys2Proof/Machine/Ops.lean ====
section
/-!
DEFINITION. The named operations: memory, registers, MemAdmit, raising an exception, the checks every form makes.
-/

namespace Sys2Proof.Machine

/-! ### Memory (10_state R33) -/

/-- What an address that memory does not list reads as (log 11). -/
def Memory.unlisted : Byte := 0

/-- The byte at an address. -/
def Memory.read : List Host.Cell → Nat → Byte
  | [], _ => Memory.unlisted
  | (x, c) :: m, a => if x = a then c else Memory.read m a

/-- `b` in front of `m`, unless it is what an unlisted address reads as. -/
def Memory.push (a : Nat) (b : Byte) (m : List Host.Cell) : List Host.Cell :=
  if b = Memory.unlisted then m else (a, b) :: m

/-- Write one byte, keeping the canonical form. No form stores (20_memory R54): a launch uses it to place bytes. -/
def Memory.write : List Host.Cell → Nat → Byte → List Host.Cell
  | [], a, b => Memory.push a b []
  | (x, c) :: m, a, b =>
    if a < x then Memory.push a b ((x, c) :: m)
    else if a = x then Memory.push a b m
    else (x, c) :: Memory.write m a b

/-- The address of byte `b` of an access at `a`, modulo 2^64 (20_memory R67). -/
def byteAddr (a : Word) (b : Nat) : Nat := (a + BitVec.ofNat 64 b).toNat

/-- `MemWrite` (00_scope R14), byte by byte. -/
def Memory.writeBytes : List Host.Cell → Word → List Byte → List Host.Cell
  | m, _, [] => m
  | m, a, b :: bs => Memory.writeBytes (Memory.write m a.toNat b) (a + 1) bs

/-- The canonical form: addresses strictly rising from `lo` on, below 2^64, no entry equal to an unlisted byte. -/
def Memory.wfFrom (lo : Nat) : List Host.Cell → Bool
  | [] => true
  | (x, c) :: m => decide (lo ≤ x) && decide (x < 2 ^ 64) && decide (c ≠ Memory.unlisted) && Memory.wfFrom (x + 1) m

def Memory.wf (m : List Host.Cell) : Bool := Memory.wfFrom 0 m

/-- The value of bytes in address order, the first byte least significant (20_memory R50). -/
def leValue : List Byte → Nat
  | [] => 0
  | b :: bs => b.toNat + 256 * leValue bs

/-! ### Registers (00_scope R14) -/

def State.readK (s : State) (i : Fin 8) : Mask := s.k[i]
def State.readV (s : State) (i : Fin 32) : Vec := s.v[i]
def State.readG (s : State) (i : Fin 16) : Word := s.g[i]

/-- All MAX_KL bits of an opmask register are written (10_state R22). -/
def State.writeK (s : State) (i : Fin 8) (m : Mask) : State := { s with k := s.k.set i m }

/-- `rip <- rip + L` (10_state R28). -/
def State.advance (s : State) (len : Nat) : State := { s with rip := s.rip + BitVec.ofNat 64 len }

/-- ReadOracle's history moves on by `n` (log 8). -/
def State.drew (s : State) (n : Nat) : State := { s with draws := s.draws + n }

/-! ### Exceptions (60_exceptions R172, R185, R186) -/

/-- The exceptions of the class (R172). -/
inductive Exception where
  | ud (c : UdCause)
  | nm
  | ss
  | gp
  | pf (info : PfInfo)
deriving DecidableEq, Repr

/-- How a step can stop. -/
inductive Stop where
  | fault (f : Fault)
  | refuse (r : Refusal)
deriving DecidableEq, Repr

def Stop.outcome : Stop → Host.Outcome State Fault Refusal
  | .fault f => .fault f
  | .refuse r => .refused r

/-- Taking an exception: `fault(kind, rip, info)`, terminal, with `rip` at the faulting instruction and nothing written
(R185, R186). There is no return from one (R188). -/
def takeException (e : Exception) (s : State) : Stop :=
  .fault <| match e with
    | .ud c => .ud s.rip c
    | .nm => .nm s.rip
    | .ss => .ss s.rip
    | .gp => .gp s.rip
    | .pf info => .pf s.rip info

/-- The processor's vector number (R172). -/
def Fault.vector : Fault → Nat
  | .ud _ _ => 6
  | .nm _ => 7
  | .ss _ => 12
  | .gp _ => 13
  | .pf _ _ => 14

/-- The error code, where there is one (R172), in 32 bits (PRESUMED, log 28). -/
def Fault.errorCode : Fault → Option (BitVec 32)
  | .ud _ _ => none
  | .nm _ => none
  | .ss _ => some 0
  | .gp _ => some 0
  | .pf _ info => some info.code

/-- The address of the faulting instruction (R185, R186). -/
def Fault.rip : Fault → Word
  | .ud rip _ => rip
  | .nm rip => rip
  | .ss rip => rip
  | .gp rip => rip
  | .pf rip _ => rip

/-! ### MemAdmit (20_memory R57 to R60; log 4) -/

def Span.applies (sp : Span) (r : Request) : Bool :=
  match sp with
  | .touching base size =>
    (List.range r.n).any fun b => decide (base ≤ byteAddr r.addr b) && decide (byteAddr r.addr b < base + size)
  | .exactly base size => decide (r.addr.toNat = base) && decide (r.n = size)
  | .wrapping => decide (r.addr.toNat < r.offset) || decide (2 ^ 64 < r.addr.toNat + r.n)

def AdmitRule.applies (u : AdmitRule) (r : Request) : Bool :=
  u.kind == r.kind && (u.seg == none || u.seg == some r.seg) && Span.applies u.span r

/-- `MemAdmit(addr, n, kind)` (R58). -/
def memAdmit (t : AdmitTable) (r : Request) : AdmitAnswer :=
  match t.rules.find? (fun u => AdmitRule.applies u r) with
  | some u => u.answer
  | none => match r.kind with
    | .fetch => t.fetchDefault
    | .read => t.readDefault

/-- Why the step stops, if it does, on an answer of MemAdmit (R56, R58, R60; 60_exceptions R175 to R177). The spec speaks of
device memory for reads only and of outside text for fetches only; a table that answers a fetch `device`, or a read
`outsideText`, is refused too, under the same name (DESIGN CHOICE, log 4). -/
def admitStop (a : AdmitAnswer) (s : State) : Option Stop :=
  match a with
  | .ok => none
  | .gp => some (takeException .gp s)
  | .ss => some (takeException .ss s)
  | .pf info => some (takeException (.pf info) s)
  | .device => some (.refuse .deviceMemory)
  | .outsideText => some (.refuse .outsideText)

def AdmitAnswer.isSegmentFault (a : AdmitAnswer) : Bool := a == .gp || a == .ss

def AdmitAnswer.isPageFault : AdmitAnswer → Bool
  | .pf _ => true
  | _ => false

/-- One answer out of several requests of one instruction: #SS or #GP before #PF (60_exceptions R181), a fault before a
refusal, and among equals the request with the lowest element (log 16). -/
def firstReported (as : List AdmitAnswer) : AdmitAnswer :=
  match as.find? AdmitAnswer.isSegmentFault with
  | some a => a
  | none => match as.find? AdmitAnswer.isPageFault with
    | some a => a
    | none => (as.find? (fun a => a != .ok)).getD .ok

/-- Rules that mirror the chip's canonical check with `bits` address bits (20_memory R59: 48 or 57): a byte in the hole, or one
over the top of the address space (R67), is #SS(0) in the stack segment, else #GP(0). A launch may put them first in its table
(log 4). -/
def canonicalRules (bits : Nat) : List AdmitRule :=
  [Span.touching (2 ^ (bits - 1)) (2 ^ 64 - 2 ^ bits), .wrapping].flatMap fun sp =>
    [⟨sp, .read, some .stack, .ss⟩, ⟨sp, .read, none, .gp⟩, ⟨sp, .fetch, none, .gp⟩]

/-! ### The checks of every form (60_exceptions R173, R174, R181; 30_encoding R106, R107) -/

/-- The CPUID expression of a form (00_scope R2, 30_encoding R97). -/
def cpuidOk (vl : VL) (c : Launch) : Bool :=
  match vl with
  | .v128 => (c.hasAvx512vl && c.hasAvx512bw) || c.hasAvx10_1
  | .v256 => (c.hasAvx512vl && c.hasAvx512bw) || c.hasAvx10_1
  | .v512 => c.hasAvx512bw || c.hasAvx10_1

/-- imm8[7:3] under the launch's policy (30_encoding R106). -/
def immAccepted (imm : BitVec 8) (c : Launch) : Bool :=
  c.imm8Policy == .ignore || imm.extractLsb' 3 5 == 0

/-- The mode (00_scope R8), then #UD (a) and (b) (R173), then #NM (R174), then the reserved immediate bits (R106; log 15);
`none` where the form goes on to read its operands. -/
def formStop (vl : VL) (imm : BitVec 8) (s : State) : Option Stop :=
  if s.cfg.mode ≠ .bits64 then some (.refuse (.mode s.cfg.mode))
  else if !s.cfg.osAvx512Enabled then some (takeException (.ud .osDisabled) s)
  else if !cpuidOk vl s.cfg then some (takeException (.ud .cpuid) s)
  else if s.cfg.cr0Ts then some (takeException .nm s)
  else if !immAccepted imm s.cfg then some (.refuse .reservedImm8)
  else none

end Sys2Proof.Machine
end

