-- ==== Sys2Proof/Machine/Flags.lean ====
section
/-!
DEFINITION. The result bits. The hardware has no flags in scope (40 R143); what a form computes is a mask, one bit per
element: the predicate table, the meaning of each OP, and `CmpW` (40 R130 to R134).
-/

namespace Sys2Proof.Machine

/-- The comparison predicates (R130). -/
inductive Pred where
  | eq | lt | le | never | neq | nlt | nle | always
deriving DecidableEq, Repr

/-- `pred = imm8[2:0]` (R95) selects the OP (R130). -/
def predOf (imm : BitVec 8) : Pred :=
  match (imm.extractLsb' 0 3).toNat with
  | 0 => .eq
  | 1 => .lt
  | 2 => .le
  | 3 => .never
  | 4 => .neq
  | 5 => .nlt
  | 6 => .nle
  | _ => .always

/-- `a OP b` (R131). -/
def Pred.holds (p : Pred) (a b : Int) : Bool :=
  match p with
  | .eq => decide (a = b)
  | .lt => decide (a < b)
  | .le => decide (a ≤ b)
  | .never => false
  | .neq => !decide (a = b)
  | .nlt => !decide (a < b)
  | .nle => !decide (a ≤ b)
  | .always => true

/-- `sint` for VPCMPW, `uint` for VPCMPUW (R132; 00_scope R14, R15). -/
def elemValue (signed : Bool) (x : Elem) : Int := if signed then x.toInt else x.toNat

/-- Element `j` of a vector: bits `16j + 15 .. 16j` (10_state R24). -/
def element {n : Nat} (x : BitVec n) (j : Nat) : Elem := x.extractLsb' (16 * j) 16

/-- `wm = none or wm[j] = 1` (R133). -/
def enabled (wm : Option Mask) (j : Nat) : Bool :=
  match wm with
  | none => true
  | some m => m.getLsbD j

/-- `a_j OP_pred b_j` (R133), SRC1 on the left (R131). -/
def compareLane {n : Nat} (signed : Bool) (p : Pred) (src1 src2 : BitVec n) (j : Nat) : Bool :=
  p.holds (elemValue signed (element src1 j)) (elemValue signed (element src2 j))

/-- `DEST[j] <- b`. -/
def setBit (d : Mask) (j : Nat) (b : Bool) : Mask :=
  if b then d ||| BitVec.twoPow _ j else d &&& ~~~BitVec.twoPow _ j

/-- `for j <- 0 to kl-1: DEST[j] <- f j`. -/
def laneLoop (f : Nat → Bool) : Nat → Mask → Mask
  | 0, d => d
  | kl + 1, d => setBit (laneLoop f kl d) kl (f kl)

/-- `DEST[MAX_KL-1:KL] <- 0`. -/
def clearAbove (kl : Nat) (d : Mask) : Mask := d &&& BitVec.ofNat _ (2 ^ kl - 1)

/-- `CmpW(signed, KL, pred, wm, SRC1, SRC2)` (R133). -/
def cmpW {n : Nat} (signed : Bool) (kl : Nat) (p : Pred) (wm : Option Mask) (src1 src2 : BitVec n) : Mask :=
  clearAbove kl (laneLoop (fun j => if enabled wm j then compareLane signed p src1 src2 j else false) kl 0)

/-- The same loop run inside the writemask register, when destination and writemask are one register (R142): iteration `j`
reads bit `j` of the register as it then is, and writes it. -/
def inPlaceLoop (cmp : Nat → Bool) : Nat → Mask → Mask
  | 0, d => d
  | kl + 1, d =>
    let d' := inPlaceLoop cmp kl d
    setBit d' kl (if d'.getLsbD kl then cmp kl else false)

def cmpWInPlace {n : Nat} (signed : Bool) (kl : Nat) (p : Pred) (m : Mask) (src1 src2 : BitVec n) : Mask :=
  clearAbove kl (inPlaceLoop (compareLane signed p src1 src2) kl m)

end Sys2Proof.Machine
end

