-- ==== Sys2Proof/Machine/Operands.lean ====
section
/-!
DEFINITION. The operand forms: register views, writemask, effective address, and the read of the second source (30_encoding
R86 to R94, 20_memory R50 to R62, 40 R135).
-/

namespace Sys2Proof.Machine

/-- The XMM, YMM or ZMM view: the low VL bits (10_state R25). -/
def view (vl : VL) (x : Vec) : BitVec vl.bits := x.setWidth vl.bits

/-- Selector 0 is "no writemask", so k0 is never read as one (10_state R23, 30_encoding R90). -/
def writemask (kw : Fin 8) (s : State) : Option Mask := if kw = 0 then none else some (s.readK kw)

/-- The displacement: a byte is signed and scaled by N, four bytes are signed and not scaled (30_encoding R91, R93). -/
def dispValue (vl : VL) : Disp → Word
  | .none => 0
  | .d8 d => d.signExtend 64 * BitVec.ofNat 64 vl.bytes
  | .d32 d => d.signExtend 64

/-- `index * 2^scale`, 0 without an index (30_encoding R91, R92, R105). -/
def indexValue (ix : Option (Fin 16)) (scale : Fin 4) (s : State) : Word :=
  match ix with
  | none => 0
  | some i => s.readG i * BitVec.ofNat 64 (2 ^ scale.val)

/-- EA modulo 2^64 (30_encoding R92, R94); `len` is the length L of the instruction. -/
def effectiveAddress (vl : VL) (len : Nat) (m : MemOp) (s : State) : Word :=
  match m with
  | .base b d => s.readG b + dispValue vl d
  | .ripRel d => s.rip + BitVec.ofNat 64 len + d.signExtend 64
  | .sib b ix sc d => s.readG b + indexValue ix sc s + dispValue vl d
  | .sibNoBase ix sc d => indexValue ix sc s + d.signExtend 64

/-- RSP and RBP as base select the stack segment (30_encoding R92). -/
def segmentOfBase (b : Fin 16) : Segment := if b = 4 ∨ b = 5 then .stack else .other

def defaultSegment : MemOp → Segment
  | .base b _ => segmentOfBase b
  | .ripRel _ => .other
  | .sib b _ _ _ => segmentOfBase b
  | .sibNoBase _ _ _ => .other

/-- MemAdmit's answer for the data read: the full width by default; with suppression, two bytes for each enabled element
(20_memory R61). -/
def admitRead (vl : VL) (ea : Word) (seg : Segment) (wm : Option Mask) (s : State) : AdmitAnswer :=
  if s.cfg.suppressMasked then
    firstReported (((List.range vl.lanes).filter (enabled wm)).map fun j =>
      memAdmit s.cfg.admits ⟨ea + BitVec.ofNat 64 (2 * j), 2, .read, seg, 2 * j⟩)
  else memAdmit s.cfg.admits ⟨ea, vl.bytes, .read, seg, 0⟩

/-- Byte `b` of the data read at `ea`, answered on its own by ReadOracle (20_memory R55, R62; log 7). -/
def dataByte (ea : Word) (b : Nat) (s : State) : Byte :=
  match s.cfg.readSource with
  | .launchMemory => Memory.read s.mem (byteAddr ea b)
  | .oracle => Config.readOracle (s.draws + b) (ea + BitVec.ofNat 64 b)

/-- The bytes of the second source. With suppression those of a masked-off element are not read; what stands in their
place reaches no result (20_memory R61; log 24). -/
def dataBytes (vl : VL) (ea : Word) (wm : Option Mask) (s : State) : List Byte :=
  (List.range vl.bytes).map fun b => if s.cfg.suppressMasked && !enabled wm (b / 2) then 0 else dataByte ea b s

/-- MemAdmit's answer to the second source's read; a register form makes no access (20_memory R53). -/
def src2Admit (vl : VL) (o : Operands) (s : State) : AdmitAnswer :=
  match o.src2 with
  | .reg _ => .ok
  | .mem m => admitRead vl (effectiveAddress vl o.length m s) (defaultSegment m) (writemask o.kw s) s

/-- SRC2 (40 R135 step 3): the register's view, or `MemRead(EA, VL/8)` (20_memory R50, R51). -/
def src2Value (vl : VL) (o : Operands) (s : State) : BitVec vl.bits :=
  match o.src2 with
  | .reg r => view vl (s.readV r)
  | .mem m => BitVec.ofNat vl.bits (leValue (dataBytes vl (effectiveAddress vl o.length m s) (writemask o.kw s) s))

/-- How far a form moves ReadOracle's history: by VL/8 in a memory form (20_memory R53), a place for each byte of the operand,
whether or not it was asked: also for masked-off elements under suppression, and where the launch memory answers. The spec says
nothing of how the history moves (DESIGN CHOICE, log 8). -/
def bytesRead (vl : VL) : Src2 → Nat
  | .reg _ => 0
  | .mem _ => vl.bytes

end Sys2Proof.Machine
end

