-- ==== Sys2Proof/Machine/Compare.lean ====
section
/-!
DEFINITION. The step of every form, once (40 R135): the six meanings are its instances.
-/

namespace Sys2Proof.Machine

/-- The mask a form computes (40 R135 steps 2 to 5). -/
def resultMask (signed : Bool) (vl : VL) (o : Operands) (s : State) : Mask :=
  cmpW signed vl.lanes (predOf o.imm8) (writemask o.kw s) (view vl (s.readV o.s1)) (src2Value vl o s)

/-- Steps 5 and 6 of R135: the one register write, then `rip <- rip + L`. -/
def retire (vl : VL) (o : Operands) (m : Mask) (s : State) : State :=
  ((s.writeK o.kd m).advance o.length).drew (bytesRead vl o.src2)

/-- R135: checks, operand read, compare, write. All reads come before the one write. -/
def runForm (signed : Bool) (vl : VL) (o : Operands) (s : State) : Host.Outcome State Fault Refusal :=
  match formStop vl o.imm8 s with
  | some st => st.outcome
  | none =>
    match admitStop (src2Admit vl o s) s with
    | some st => st.outcome
    | none => .next (retire vl o (resultMask signed vl o s) s)

end Sys2Proof.Machine
end

