-- ==== Sys2Proof/Machine/Vpcmpuw.lean ====
section
/-!
DEFINITION. VPCMPUW, the unsigned compare, at its three vector lengths (40 R139, R140, R141).
-/

namespace Sys2Proof.Machine

/-- `VPCMPUW k1 {k2}, xmm2, xmm3/m128, imm8` (R139). -/
def execVpcmpuwXmm (o : Operands) (s : State) : Host.Outcome State Fault Refusal := runForm false .v128 o s

/-- `VPCMPUW k1 {k2}, ymm2, ymm3/m256, imm8` (R140). -/
def execVpcmpuwYmm (o : Operands) (s : State) : Host.Outcome State Fault Refusal := runForm false .v256 o s

/-- `VPCMPUW k1 {k2}, zmm2, zmm3/m512, imm8` (R141). -/
def execVpcmpuwZmm (o : Operands) (s : State) : Host.Outcome State Fault Refusal := runForm false .v512 o s

end Sys2Proof.Machine
end

