-- ==== Sys2Proof/Machine/Vpcmpw.lean ====
section
/-!
DEFINITION. VPCMPW, the signed compare, at its three vector lengths (40 R136, R137, R138).
-/

namespace Sys2Proof.Machine

/-- `VPCMPW k1 {k2}, xmm2, xmm3/m128, imm8` (R136). -/
def execVpcmpwXmm (o : Operands) (s : State) : Host.Outcome State Fault Refusal := runForm true .v128 o s

/-- `VPCMPW k1 {k2}, ymm2, ymm3/m256, imm8` (R137). -/
def execVpcmpwYmm (o : Operands) (s : State) : Host.Outcome State Fault Refusal := runForm true .v256 o s

/-- `VPCMPW k1 {k2}, zmm2, zmm3/m512, imm8` (R138). -/
def execVpcmpwZmm (o : Operands) (s : State) : Host.Outcome State Fault Refusal := runForm true .v512 o s

end Sys2Proof.Machine
end

