-- ==== Sys2Proof/Machine/Dispatch.lean ====
section
/-!
DEFINITION. One arm per constructor: each instruction's meaning.
-/

namespace Sys2Proof.Machine

def exec (i : Instr) (s : State) : Host.Outcome State Fault Refusal :=
  match i with
  | .vpcmpwXmm o => Sys2Proof.Machine.execVpcmpwXmm o s
  | .vpcmpwYmm o => Sys2Proof.Machine.execVpcmpwYmm o s
  | .vpcmpwZmm o => Sys2Proof.Machine.execVpcmpwZmm o s
  | .vpcmpuwXmm o => Sys2Proof.Machine.execVpcmpuwXmm o s
  | .vpcmpuwYmm o => Sys2Proof.Machine.execVpcmpuwYmm o s
  | .vpcmpuwZmm o => Sys2Proof.Machine.execVpcmpuwZmm o s

end Sys2Proof.Machine
end

