-- ==== Sys2Proof/Machine/Fetch.lean ====
section
/-!
DEFINITION. Fetching an instruction (20_memory R60, R65; 60_exceptions R181), and placing one where it is fetched.
-/

namespace Sys2Proof.Machine

/-- The bytes a decoder may ask for: at most 12 from `rip` on (R60, 30_encoding R81). Fetch does not go through ReadOracle. -/
def window (s : State) : List Byte :=
  (List.range maxLength).map fun b => Memory.read s.mem (byteAddr s.rip b)

/-- Why the fetch of `n` bytes stops, if it does: MemAdmit's answer, then the refusal to wrap `rip` (R60, 10_state R28;
log 5, log 6). -/
def fetchStop (n : Nat) (s : State) : Option Stop :=
  match admitStop (memAdmit s.cfg.admits ⟨s.rip, n, .fetch, .other, 0⟩) s with
  | some st => some st
  | none => if 2 ^ 64 ≤ s.rip.toNat + n then some (.refuse .ripWouldWrap) else none

/-- What a verdict of the decoder does to the step (30_encoding R99). -/
def verdict (d : Decoded) (s : State) : Except Stop Instr :=
  match d with
  | .instr i _ => .ok i
  | .ud c _ => .error (takeException (.ud c) s)
  | .refuse r _ => .error (.refuse (.encoding r))

/-- The next instruction, or why there is none: mode, fetch fault, then the decoder's verdict (00_scope R8, 60_exceptions
R181). -/
def fetch (s : State) : Except Stop Instr :=
  if s.cfg.mode ≠ .bits64 then .error (.refuse (.mode s.cfg.mode))
  else
    match fetchStop (decode (window s)).consumed s with
    | some st => .error st
    | none => verdict (decode (window s)) s

/-- The fetch of every prefix of the 12 bytes is admitted. -/
def textAdmitted (s : State) : Bool :=
  (List.range (maxLength + 1)).all fun n => memAdmit s.cfg.admits ⟨s.rip, n, .fetch, .other, 0⟩ == .ok

/-- A launch that has these bytes as program text at `rip` (70 R215): they stand in memory, and MemAdmit admits their fetch
(R212 premise 5), by a rule put in front only where the table does not do so already (log 21). -/
def placeText (s : State) (bs : List Byte) : State :=
  let t := { s with mem := Memory.writeBytes s.mem s.rip bs }
  if textAdmitted t then t
  else { t with cfg := { t.cfg with admits := { t.cfg.admits with
    rules := ⟨.touching t.rip.toNat maxLength, .fetch, none, .ok⟩ :: t.cfg.admits.rules } } }

end Sys2Proof.Machine
end

