-- ==== Sys2Proof/Machine/Step.lean ====
section
/-!
DEFINITION. One step: fetch, then the instruction's meaning (40 R135, 60_exceptions R186, R187).
-/

namespace Sys2Proof.Machine

def step (s : State) : Host.Outcome State Fault Refusal :=
  match fetch s with
  | .ok i => exec i s
  | .error st => st.outcome

/-- `s` with the instruction of `nbits` bits `w` stored where `step` fetches next. -/
def State.withFetchWord (s : State) (nbits w : Nat) : State := placeText s (tableBytes nbits w)

end Sys2Proof.Machine
end

