-- ==== Sys2Proof/Machine/Program.lean ====
section
/-!
DEFINITION. Programs, their launch, their run and its end (70_reset_and_hazards R210, R211, R215). No step uses them.
-/

namespace Sys2Proof.Machine

/-- A finite sequence of instructions in scope, laid end to end from a base address (R215). -/
structure Program where
  base : Word
  code : List Instr
deriving DecidableEq, Repr

/-- The length of a sequence of instructions in bytes. -/
def codeSize (code : List Instr) : Nat := (code.map Instr.length).sum

/-- The bytes of a sequence of instructions. -/
def codeBytes (code : List Instr) : List Byte := code.flatMap encode

/-- `T`, the length of the program in bytes (R215). -/
def Program.size (p : Program) : Nat := codeSize p.code

/-- `base + T`: where a run ends normally (R215). -/
def Program.endAddr (p : Program) : Word := p.base + BitVec.ofNat 64 p.size

/-- MemAdmit for the fetch of a program (20_memory R60, R212 premise 5): what touches a byte outside the declared text, the
bytes at `base + T` among them, is `outsideText`; what lies within it is admitted. -/
def Program.textRules (p : Program) : List AdmitRule :=
  let top := p.base.toNat + p.size
  [⟨.touching top (2 ^ 64 - top), .fetch, none, .outsideText⟩, ⟨.touching 0 p.base.toNat, .fetch, none, .outsideText⟩,
    ⟨.touching p.base.toNat p.size, .fetch, none, .ok⟩]

/-- The launch state of a program over a state that gives all else (R210): its text in memory and declared, `rip = base`. -/
def Program.launch (p : Program) (s : State) : State :=
  { s with
    rip := p.base
    mem := Memory.writeBytes s.mem p.base (codeBytes p.code)
    cfg := { s.cfg with admits := { s.cfg.admits with rules := p.textRules ++ s.cfg.admits.rules } } }

/-- A run has ended normally when `rip = base + T` (R215). An empty program (T = 0) has ended at its launch, with no instruction
completed: R215's 'reached by a completed instruction' leaves that case open (DESIGN CHOICE, log 29). -/
def Program.ended (p : Program) (s : State) : Bool := s.rip == p.endAddr

/-- At most `n` steps of the program; an ended run steps no further, so nothing at `base + T` is fetched (R215). -/
def Program.run (p : Program) : Nat → State → Host.Outcome State Fault Refusal
  | 0, s => .next s
  | n + 1, s =>
    if p.ended s then .next s
    else match step s with
      | .next t => p.run n t
      | .fault f => .fault f
      | .refused r => .refused r

/-- The final state of a run from `s`: none where it ends in a fault or a refusal (R215). A program of `n` instructions takes at
most `n` steps; the final state of an empty program is the state it is launched in (log 29). -/
def Program.finalState (p : Program) (s : State) : Option State :=
  match p.run p.code.length s with
  | .next t => if p.ended t then some t else none
  | .fault _ => none
  | .refused _ => none

/-- The family's power-up state, from the note R211 (PRESUMED, log 9): the registers of State.reset, real-address mode, opmask and
ZMM state not enabled, CR0.TS clear. -/
def State.powerUp : State :=
  { State.reset with
    cfg := { defaultLaunch with
      mode := .realAddress
      osAvx512Enabled := false
      cr0Ts := false } }

end Sys2Proof.Machine
end

