-- ==== Sys2Proof/Safety.lean ====
section
/-!
DEFINITION. What counts as a safe step, and the terms the statements use: when a form completes, what it does, and the
invariant of the machine.
-/

namespace Sys2Proof.Machine

/-- A step is safe when it answers a next state: no fault, no refusal (60_exceptions R186, R187). -/
def SafeStep (s : State) : Prop := ∃ t, step s = .next t

/-- The launch premises 1 to 4 of 70_reset_and_hazards R212 for a form of vector length `vl`. -/
def formReady (vl : VL) (s : State) : Bool :=
  s.cfg.mode == .bits64 && s.cfg.osAvx512Enabled && cpuidOk vl s.cfg && !s.cfg.cr0Ts

/-- When a form executes normally: ready, immediate accepted, second source admitted. -/
def canComplete (vl : VL) (o : Operands) (s : State) : Bool :=
  formReady vl s && immAccepted o.imm8 s.cfg && src2Admit vl o s == .ok

/-- What a step leaves as it was, whatever it does to opmask registers, `rip` and the model's own `draws`: vector and
general registers, EFLAGS, MXCSR, every byte of memory, the configuration. -/
structure SameElsewhere (s t : State) : Prop where
  vectors : t.v = s.v
  general : t.g = s.g
  eflags  : t.eflags = s.eflags
  mxcsr   : t.mxcsr = s.mxcsr
  memory  : ∀ a, Memory.read t.mem a = Memory.read s.mem a
  config  : t.cfg = s.cfg

/-- What a completed form does (40 R133 to R135), bit by bit: `t` is the state after it. The first three fields say what enables a
lane (10_state R22, R23) and what a register second source is (40 R135 step 3). -/
structure FormEffect (signed : Bool) (vl : VL) (o : Operands) (s t : State) : Prop where
  maskedLane : o.kw ≠ 0 → ∀ j, enabled (writemask o.kw s) j = (s.readK o.kw).getLsbD j
  unmaskedLane : o.kw = 0 → ∀ j, enabled (writemask o.kw s) j = true
  registerSource : ∀ r, o.src2 = .reg r → ∀ j, j < vl.lanes → element (src2Value vl o s) j = element (s.readV r) j
  destination : ∀ j, (t.readK o.kd).getLsbD j =
    (decide (j < vl.lanes) && enabled (writemask o.kw s) j &&
      (predOf o.imm8).holds (elemValue signed (element (s.readV o.s1) j)) (elemValue signed (element (src2Value vl o s) j)))
  otherMasks : ∀ i, i ≠ o.kd → t.readK i = s.readK i
  rip : t.rip = s.rip + BitVec.ofNat 64 o.length
  elsewhere : SameElsewhere s t

/-- The invariant: memory is canonical, and every opmask register has bits 63:32 clear, as every form leaves them
(40 R134). -/
def Inv (s : State) : Prop := Memory.wf s.mem = true ∧ ∀ i : Fin 8, (s.readK i).toNat < 2 ^ 32

/-- Bytes P0, P1, P2 and the opcode spell form `f` with no reserved bit set, in the bit positions of 30_encoding R83:
P0 = R X B R' 0 mmm, P1 = W vvvv 1 pp, P2 = z L'L b V' aaa. -/
structure EvexRow (f : Form) (p0 p1 p2 op : Byte) : Prop where
  map      : p0.toNat % 16 = 3
  destLow  : p0.toNat / 128 = 1 ∧ p0.toNat / 16 % 2 = 1
  fixedWpp : p1.toNat / 128 = 1 ∧ p1.toNat % 8 = 5
  zAndB    : p2.toNat / 128 = 0 ∧ p2.toNat / 16 % 2 = 0
  length   : p2.toNat / 32 % 4 = f.vl.ll
  opcode   : op = f.opcode

/-- The operands every form takes from P1, P2 and ModRM (30_encoding R87, R88, R90), with the immediate. -/
structure HeadOperands (p1 p2 m imm : Byte) (o : Operands) : Prop where
  kd   : o.kd.val = m.toNat / 8 % 8
  kw   : o.kw.val = p2.toNat % 8
  s1   : o.s1.val = 16 * (1 - p2.toNat / 8 % 2) + (15 - p1.toNat / 8 % 16)
  imm8 : o.imm8 = imm

/-- The logical value of stored bits X and B of P0 (30_encoding R83). -/
def logicalX (p0 : Byte) : Nat := 1 - p0.toNat / 64 % 2
def logicalB (p0 : Byte) : Nat := 1 - p0.toNat / 32 % 2

/-- Byte `b` of the data read at `ea`, as the launch memory holds it. -/
def memByte (s : State) (ea : Word) (b : Nat) : Byte := Memory.read s.mem (byteAddr ea b)

/-- The index term `index * 2^scale` as an integer, 0 without an index (30_encoding R91, R92). -/
def indexInt (ix : Option (Fin 16)) (scale : Fin 4) (s : State) : Int :=
  match ix with
  | none => 0
  | some x => (s.readG x).toNat * 2 ^ scale.val

/-- The address a memory operand of a form reads at. -/
def operandAddress (vl : VL) (o : Operands) (m : MemOp) (s : State) : Word := effectiveAddress vl o.length m s

end Sys2Proof.Machine
end

