-- ==== Sys2Proof/Certificates/Slice0/Obligations.lean ====
section
/-!
DEFINITION. The statements for the provers. Each docstring names the rule of spec/ it formalises.
-/

open Sys2Proof Sys2Proof.Machine

/-! ### Encoding -/

/-- Words written out from the layout of 30_encoding R83 to R91 (95_test_vectors section 2.1, E1, E4, E5, E3, E7, E10, E18, E20,
E22) decode to the operands of section 2.2. -/
def Obligations.HandWrittenWordsDecode : Prop :=
  decode [0x62, 0xF3, 0xED, 0x48, 0x3F, 0xCB, 0x03] = .instr (.vpcmpwZmm ⟨1, 0, 2, .reg 3, 3⟩) 7 ∧
  decode [0x62, 0xF3, 0xED, 0x08, 0x3F, 0xCA, 0x00] = .instr (.vpcmpwXmm ⟨1, 0, 2, .reg 2, 0⟩) 7 ∧
  decode [0x62, 0xF3, 0xE5, 0x28, 0x3F, 0xC2, 0x01] = .instr (.vpcmpwYmm ⟨0, 0, 3, .reg 2, 1⟩) 7 ∧
  decode [0x62, 0xF3, 0xED, 0x48, 0x3E, 0xCB, 0x01] = .instr (.vpcmpuwZmm ⟨1, 0, 2, .reg 3, 1⟩) 7 ∧
  decode [0x62, 0xB3, 0x85, 0x23, 0x3E, 0xE0, 0x07] = .instr (.vpcmpuwYmm ⟨4, 3, 31, .reg 16, 7⟩) 7 ∧
  decode [0x62, 0xF3, 0xF5, 0x47, 0x3E, 0x68, 0x01, 0x06] = .instr (.vpcmpuwZmm ⟨5, 7, 17, .mem (.base 0 (.d8 1)), 6⟩) 8 ∧
  decode [0x62, 0xB3, 0xFD, 0x48, 0x3F, 0x74, 0xF5, 0xFE, 0x01] =
    .instr (.vpcmpwZmm ⟨6, 0, 0, .mem (.sib 5 (some 14) 3 (.d8 0xFE)), 1⟩) 9 ∧
  decode [0x62, 0xF3, 0xFD, 0x08, 0x3E, 0x0C, 0x25, 0x00, 0x10, 0x00, 0x00, 0x02] =
    .instr (.vpcmpuwXmm ⟨1, 0, 0, .mem (.sibNoBase none 0 0x1000), 2⟩) 12 ∧
  decode [0x62, 0xF3, 0xF5, 0x08, 0x3F, 0x15, 0x10, 0x00, 0x00, 0x00, 0x04] =
    .instr (.vpcmpwXmm ⟨2, 0, 1, .mem (.ripRel 0x10), 4⟩) 11

/-- Decoding the bytes of any well-formed instruction, whatever bytes follow, gives it back with its length. -/
def Obligations.DecodeOfEncodeReturnsInstr : Prop :=
  ∀ (i : Instr) (rest : List Byte), i.wellFormed = true → decode (encode i ++ rest) = .instr i i.length

/-- A byte string that decodes selects the row of its instruction under the row's match and mask (R98), and no other row. -/
def Obligations.DecodedBytesSelectOnlyTheirRow : Prop :=
  ∀ (bs : List Byte) (i : Instr) (n : Nat), decode bs = .instr i n →
    ∀ f : Form, f.selects bs = true ↔ f = i.form

/-- The decoder hands out only instructions the encoding can spell, with the length R81 gives, never more bytes than there are. -/
def Obligations.DecodedInstrIsWellFormed : Prop :=
  ∀ (bs : List Byte) (i : Instr) (n : Nat), decode bs = .instr i n →
    i.wellFormed = true ∧ n = i.length ∧ n ≤ bs.length ∧ 7 ≤ n ∧ n ≤ 12

/-- The decoder's instruction depends on the bytes of the instruction alone (R96: the length is known from ModRM and SIB). -/
def Obligations.DecoderReadsNoFurther : Prop :=
  ∀ (bs rest : List Byte) (i : Instr) (n : Nat), decode bs = .instr i n → decode (bs.take n ++ rest) = .instr i n

/-- R88 and R89 with R87, R90, R95: the operand numbers of every register form, as arithmetic on the stored bits. -/
def Obligations.RegisterFormOperandNumbers : Prop :=
  ∀ (f : Form) (p0 p1 p2 op m imm : Byte) (rest : List Byte), EvexRow f p0 p1 p2 op → m.toNat / 64 = 3 →
    ∃ (o : Operands) (r : Fin 32), decode (0x62 :: p0 :: p1 :: p2 :: op :: m :: imm :: rest) = .instr (f.instr o) 7 ∧
      HeadOperands p1 p2 m imm o ∧ o.src2 = .reg r ∧ r.val = 16 * logicalX p0 + 8 * logicalB p0 + m.toNat % 8

/-- The rows of R91 without a SIB byte, and R94's encoding: which base, which displacement, which length. -/
def Obligations.MemoryFormsWithoutSib : Prop :=
  ∀ (f : Form) (p0 p1 p2 op m d0 d1 d2 d3 imm : Byte) (rest : List Byte), EvexRow f p0 p1 p2 op → p0.toNat / 64 % 2 = 1 →
    m.toNat % 8 ≠ 4 → ∃ (o : Operands) (b : Fin 16) (d : BitVec 32),
      HeadOperands p1 p2 m imm o ∧ b.val = 8 * logicalB p0 + m.toNat % 8 ∧
      d.toNat = d0.toNat + 2 ^ 8 * d1.toNat + 2 ^ 16 * d2.toNat + 2 ^ 24 * d3.toNat ∧
      (m.toNat / 64 = 0 → m.toNat % 8 ≠ 5 → decode (0x62 :: p0 :: p1 :: p2 :: op :: m :: imm :: rest) =
        .instr (f.instr { o with src2 := .mem (.base b .none) }) 7) ∧
      (m.toNat / 64 = 0 → m.toNat % 8 = 5 →
        decode (0x62 :: p0 :: p1 :: p2 :: op :: m :: d0 :: d1 :: d2 :: d3 :: imm :: rest) =
          .instr (f.instr { o with src2 := .mem (.ripRel d) }) 11) ∧
      (m.toNat / 64 = 1 → decode (0x62 :: p0 :: p1 :: p2 :: op :: m :: d0 :: imm :: rest) =
        .instr (f.instr { o with src2 := .mem (.base b (.d8 d0)) }) 8) ∧
      (m.toNat / 64 = 2 → decode (0x62 :: p0 :: p1 :: p2 :: op :: m :: d0 :: d1 :: d2 :: d3 :: imm :: rest) =
        .instr (f.instr { o with src2 := .mem (.base b (.d32 d)) }) 11)

/-- The rows of R91 with a SIB byte: base, index (number 4 is none), scale, displacement, length. -/
def Obligations.MemoryFormsWithSib : Prop :=
  ∀ (f : Form) (p0 p1 p2 op m sib d0 d1 d2 d3 imm : Byte) (rest : List Byte), EvexRow f p0 p1 p2 op →
    m.toNat % 8 = 4 → ∃ (o : Operands) (b x : Fin 16) (sc : Fin 4) (ix : Option (Fin 16)) (d : BitVec 32),
      HeadOperands p1 p2 m imm o ∧ b.val = 8 * logicalB p0 + sib.toNat % 8 ∧
      x.val = 8 * logicalX p0 + sib.toNat / 8 % 8 ∧ ix = (if x = 4 then none else some x) ∧ sc.val = sib.toNat / 64 ∧
      d.toNat = d0.toNat + 2 ^ 8 * d1.toNat + 2 ^ 16 * d2.toNat + 2 ^ 24 * d3.toNat ∧
      (m.toNat / 64 = 0 → sib.toNat % 8 ≠ 5 → decode (0x62 :: p0 :: p1 :: p2 :: op :: m :: sib :: imm :: rest) =
        .instr (f.instr { o with src2 := .mem (.sib b ix sc .none) }) 8) ∧
      (m.toNat / 64 = 0 → sib.toNat % 8 = 5 →
        decode (0x62 :: p0 :: p1 :: p2 :: op :: m :: sib :: d0 :: d1 :: d2 :: d3 :: imm :: rest) =
          .instr (f.instr { o with src2 := .mem (.sibNoBase ix sc d) }) 12) ∧
      (m.toNat / 64 = 1 → decode (0x62 :: p0 :: p1 :: p2 :: op :: m :: sib :: d0 :: imm :: rest) =
        .instr (f.instr { o with src2 := .mem (.sib b ix sc (.d8 d0)) }) 9) ∧
      (m.toNat / 64 = 2 → decode (0x62 :: p0 :: p1 :: p2 :: op :: m :: sib :: d0 :: d1 :: d2 :: d3 :: imm :: rest) =
        .instr (f.instr { o with src2 := .mem (.sib b ix sc (.d32 d)) }) 12)

/-- R100, R101, R102, R103: a byte string that selects a row once z, b, L'L, R and R' are set aside, and has one of them at a
reserved value, is #UD, with a cause that holds of it (which one, where several do, is the model's: log 15). -/
def Obligations.ReservedEvexBitsAreUd : Prop :=
  ∀ (p0 p1 p2 op : Byte) (rest : List Byte), p0.toNat % 16 = 3 → p1.toNat / 128 = 1 → p1.toNat % 8 = 5 →
    (op = 0x3E ∨ op = 0x3F) → 7 ≤ rest.length →
    (p2.toNat / 128 = 1 ∨ p2.toNat / 16 % 2 = 1 ∨ p2.toNat / 32 % 4 = 3 ∨ p0.toNat / 128 = 0 ∨ p0.toNat / 16 % 2 = 0) →
    ∃ c n, decode (0x62 :: p0 :: p1 :: p2 :: op :: rest) = .ud c n ∧
      ((c = .evexZ ∧ p2.toNat / 128 = 1) ∨ (c = .evexB ∧ p2.toNat / 16 % 2 = 1) ∨ (c = .evexLL ∧ p2.toNat / 32 % 4 = 3) ∨
        (c = .destination ∧ (p0.toNat / 128 = 0 ∨ p0.toNat / 16 % 2 = 0)))

/-- R104 (a fixed bit violated), R112 (another W, pp, mmm, opcode, or first byte) and R110's prefix bytes before a byte other than
62H: refused. The names and the bytes consumed to give the verdict (2, 3, 1, 2) are the model's (log 5). Strings that differ from a
row in z, b or L'L only select no row either and are #UD: `ReservedEvexBitsAreUd`; R110's bytes before 62H are
`LegacyPrefixVerdicts`. -/
def Obligations.ForeignEncodingsAreRefused : Prop :=
  (∀ (p0 p1 p2 op : Byte) (rest : List Byte),
    (p0.toNat % 16 ≠ 3 ∨ p1.toNat / 128 = 0 ∨ p1.toNat % 8 ≠ 5 ∨ (op ≠ 0x3E ∧ op ≠ 0x3F)) →
      ∃ r n, decode (0x62 :: p0 :: p1 :: p2 :: op :: rest) = .refuse r n) ∧
  (∀ (p0 : Byte) (rest : List Byte), p0.toNat / 8 % 2 = 1 → decode (0x62 :: p0 :: rest) = .refuse .fixedBits 2) ∧
  (∀ (p0 p1 : Byte) (rest : List Byte), p0.toNat % 16 = 3 → p1.toNat / 4 % 2 = 0 →
    decode (0x62 :: p0 :: p1 :: rest) = .refuse .fixedBits 3) ∧
  (∀ (b0 : Byte) (rest : List Byte), b0 ≠ 0x62 → isUdPrefix b0 = false → ∃ r, decode (b0 :: rest) = .refuse r 1) ∧
  (∀ (b0 b1 : Byte) (rest : List Byte), isUdPrefix b0 = true → b1 ≠ 0x62 → decode (b0 :: b1 :: rest) = .refuse .firstByte 2)

/-- R104: a string with P0[3] = 1 or P1[2] = 0 selects no row of the table, and the decoder refuses it, which is no fault. -/
def Obligations.ViolatedFixedBitsAreRefused : Prop :=
  ∀ (p0 p1 p2 op : Byte) (rest : List Byte), (p0.toNat / 8 % 2 = 1 ∨ p1.toNat / 4 % 2 = 0) →
    (∀ f : Form, f.selects (0x62 :: p0 :: p1 :: p2 :: op :: rest) = false) ∧
    ∃ r n, decode (0x62 :: p0 :: p1 :: p2 :: op :: rest) = .refuse r n

/-- R105: stored X = 0 in a memory form without SIB is refused; a scale without an index is accepted and has nothing to
multiply. -/
def Obligations.UnusedBitsOfMemoryForms : Prop :=
  (∀ (f : Form) (p0 p1 p2 op m : Byte) (rest : List Byte), EvexRow f p0 p1 p2 op → p0.toNat / 64 % 2 = 0 →
    m.toNat / 64 ≠ 3 → m.toNat % 8 ≠ 4 → 5 ≤ rest.length →
      ∃ n, decode (0x62 :: p0 :: p1 :: p2 :: op :: m :: rest) = .refuse .xWithoutSib n) ∧
  (∀ (f : Form) (o : Operands) (b : Fin 16) (sc : Fin 4) (d : Disp) (rest : List Byte), dispAllowed b d = true →
    decode (f.encode { o with src2 := .mem (.sib b none sc d) } ++ rest) =
      .instr (f.instr { o with src2 := .mem (.sib b none sc d) }) (8 + d.size)) ∧
  (∀ (vl : VL) (len : Nat) (b : Fin 16) (sc sc' : Fin 4) (d : Disp) (e : BitVec 32) (s : State),
    effectiveAddress vl len (.sib b none sc d) s = effectiveAddress vl len (.sib b none sc' d) s ∧
    effectiveAddress vl len (.sibNoBase none sc e) s = effectiveAddress vl len (.sibNoBase none sc' e) s)

/-- The model's choice between the two verdicts R110 allows (log 14), and R111: LOCK, 66H, F2H, F3H and REX immediately before
62H are #UD; segment-override and address-size prefixes are refused. -/
def Obligations.LegacyPrefixVerdicts : Prop :=
  (∀ (b : Byte) (rest : List Byte), (b ∈ [0xF0, 0x66, 0xF2, 0xF3] ∨ b.toNat / 16 = 4) →
    decode (b :: 0x62 :: rest) = .ud .legacyPrefix 2) ∧
  (∀ (b : Byte) (rest : List Byte), b ∈ [0x26, 0x2E, 0x36, 0x3E, 0x64, 0x65, 0x67] →
    decode (b :: rest) = .refuse .legacyPrefix 1)

/-! ### The predicate, the compare, the mask -/

/-- R10: the pairs of KL and VL, and VL in bytes. -/
def Obligations.LanesOfEachLength : Prop :=
  (VL.v128.lanes, VL.v128.bits) = (8, 128) ∧ (VL.v256.lanes, VL.v256.bits) = (16, 256) ∧
    (VL.v512.lanes, VL.v512.bits) = (32, 512) ∧ ∀ vl : VL, vl.bits = 16 * vl.lanes ∧ vl.bits = 8 * vl.bytes

/-- R130: bits 2:0 of the immediate select EQ, LT, LE, FALSE, NEQ, NLT, NLE, TRUE. -/
def Obligations.PredicateOfImmediate : Prop :=
  ∀ imm : BitVec 8, some (predOf imm) =
    [Pred.eq, .lt, .le, .never, .neq, .nlt, .nle, .always][imm.toNat % 8]?

/-- R131: what each OP means on two integers. -/
def Obligations.PredicateMeaning : Prop :=
  ∀ a b : Int, (Pred.eq.holds a b = true ↔ a = b) ∧ (Pred.lt.holds a b = true ↔ a < b) ∧
    (Pred.le.holds a b = true ↔ a ≤ b) ∧ Pred.never.holds a b = false ∧ (Pred.neq.holds a b = true ↔ a ≠ b) ∧
    (Pred.nlt.holds a b = true ↔ a ≥ b) ∧ (Pred.nle.holds a b = true ↔ a > b) ∧ Pred.always.holds a b = true

/-- R132: the integers compared, their ranges, and where the two readings order a pair differently. -/
def Obligations.SignednessOfElements : Prop :=
  ∀ x y : Elem,
    elemValue false x = x.toNat ∧ elemValue true x = (if x.toNat < 2 ^ 15 then (x.toNat : Int) else x.toNat - 2 ^ 16) ∧
    (-32768 ≤ elemValue true x ∧ elemValue true x ≤ 32767) ∧ (0 ≤ elemValue false x ∧ elemValue false x ≤ 65535) ∧
    (∀ p : Pred, p ∈ [Pred.eq, .neq, .never, .always] →
      p.holds (elemValue true x) (elemValue true y) = p.holds (elemValue false x) (elemValue false y)) ∧
    (∀ p : Pred, p ∈ [Pred.lt, .le, .nlt, .nle] →
      (p.holds (elemValue true x) (elemValue true y) ≠ p.holds (elemValue false x) (elemValue false y) ↔
        x.getLsbD 15 ≠ y.getLsbD 15))

/-- The closed form of R133's loop: bit j is (enabled) and (a_j OP b_j) below KL, 0 from KL on. -/
def Obligations.CompareMaskBitByBit : Prop :=
  ∀ (n : Nat) (signed : Bool) (kl : Nat) (p : Pred) (wm : Option Mask) (src1 src2 : BitVec n) (j : Nat), kl ≤ Config.maxKl →
    (cmpW signed kl p wm src1 src2).getLsbD j =
      (decide (j < kl) && enabled wm j && p.holds (elemValue signed (element src1 j)) (elemValue signed (element src2 j)))

/-- R134: a bit whose writemask bit is 0 becomes 0 (the writemask bit being bit j of register kw, where kw is not 0), bits from KL
on become 0, and what the destination held before has no effect (where it is not also the writemask). -/
def Obligations.MaskingIsZeroing : Prop :=
  ∀ (i : Instr) (s t : State), exec i s = .next t →
    (i.operands.kw ≠ 0 → ∀ j, enabled (writemask i.operands.kw s) j = (s.readK i.operands.kw).getLsbD j) ∧
    (∀ j, enabled (writemask i.operands.kw s) j = false → (t.readK i.operands.kd).getLsbD j = false) ∧
    (∀ j, i.form.vl.lanes ≤ j → (t.readK i.operands.kd).getLsbD j = false) ∧
    (i.operands.kd ≠ i.operands.kw → ∀ old : Mask, exec i (s.writeK i.operands.kd old) = .next t)

/-- Only bits KL-1..0 of a writemask register are read (R22; vector K4): its other bits change neither the destination nor
whether the form completes. -/
def Obligations.WritemaskReadBelowLanesOnly : Prop :=
  ∀ (i : Instr) (s t : State) (m : Mask), i.operands.kw ≠ 0 →
    (∀ j, j < i.form.vl.lanes → m.getLsbD j = (s.readK i.operands.kw).getLsbD j) → exec i s = .next t →
    ∃ t', exec i (s.writeK i.operands.kw m) = .next t' ∧ t'.readK i.operands.kd = t.readK i.operands.kd

/-- R23: selector 0 is "no writemask", so every element is compared, and k0 is never read: its value shows nowhere else. -/
def Obligations.SelectorZeroIsNoWritemask : Prop :=
  (∀ (i : Instr) (s t : State), i.operands.kw = 0 → exec i s = .next t → ∀ j, j < i.form.vl.lanes →
    (t.readK i.operands.kd).getLsbD j = (predOf i.operands.imm8).holds
      (elemValue i.form.signed (element (s.readV i.operands.s1) j))
      (elemValue i.form.signed (element (src2Value i.form.vl i.operands s) j))) ∧
  (∀ (i : Instr) (s t : State) (m : Mask), exec i s = .next t →
    exec i (s.writeK 0 m) = .next (if i.operands.kd = 0 then t else t.writeK 0 m))

/-- Bits of a vector register at VL and above have no effect (R26; vector K5). -/
def Obligations.UpperSourceBitsNotRead : Prop :=
  ∀ (i : Instr) (s t : State) (v' : Vector Vec 32),
    (∀ r : Fin 32, (v'[r]).setWidth i.form.vl.bits = (s.readV r).setWidth i.form.vl.bits) → exec i s = .next t →
    exec i { s with v := v' } = .next { t with v := v' }

/-- R142: where the destination is the writemask, computing in place and computing from a copy agree. -/
def Obligations.InPlaceCompareAgrees : Prop :=
  ∀ (n : Nat) (signed : Bool) (kl : Nat) (p : Pred) (m : Mask) (src1 src2 : BitVec n), kl ≤ Config.maxKl →
    cmpWInPlace signed kl p m src1 src2 = cmpW signed kl p (some m) src1 src2

/-- R142: the same register as both sources: EQ, LE, NLT, TRUE give the enabled set, the other four give 0. -/
def Obligations.SameSourceCompare : Prop :=
  ∀ (i : Instr) (s t : State), i.operands.src2 = .reg i.operands.s1 → exec i s = .next t →
    ∀ j, (t.readK i.operands.kd).getLsbD j = (decide (j < i.form.vl.lanes) && enabled (writemask i.operands.kw s) j &&
      decide (predOf i.operands.imm8 ∈ [Pred.eq, .le, .nlt, .always]))

/-- The identities of R146, for the mask function of R133. -/
def Obligations.CompareIdentities : Prop :=
  ∀ (n : Nat) (kl : Nat) (wm : Option Mask) (a b : BitVec n), kl ≤ Config.maxKl →
    (∀ g, cmpW g kl .never wm a b = 0) ∧
    (∀ g j, (cmpW g kl .always wm a b).getLsbD j = (decide (j < kl) && enabled wm j)) ∧
    (∀ g, ∀ q ∈ [(Pred.eq, Pred.neq), (.lt, .nlt), (.le, .nle), (.never, .always)],
      cmpW g kl q.1 wm a b ||| cmpW g kl q.2 wm a b = cmpW g kl .always wm a b ∧
      cmpW g kl q.1 wm a b &&& cmpW g kl q.2 wm a b = 0) ∧
    (∀ g, cmpW g kl .le wm a b = cmpW g kl .eq wm a b ||| cmpW g kl .lt wm a b ∧
      cmpW g kl .eq wm a b &&& cmpW g kl .lt wm a b = 0) ∧
    (cmpW true kl .eq wm a b = cmpW false kl .eq wm a b ∧ cmpW true kl .neq wm a b = cmpW false kl .neq wm a b) ∧
    (∀ g, cmpW g kl .lt wm b a = cmpW g kl .nle wm a b ∧ cmpW g kl .le wm b a = cmpW g kl .nlt wm a b) ∧
    (∀ g p m, cmpW g kl p (some m) a b = cmpW g kl p none a b &&& m)

/-! ### Operands and memory -/

/-- R93 and R94 with R91, R92: the effective address of each form as integer arithmetic modulo 2^64. -/
def Obligations.EffectiveAddressOfEachForm : Prop :=
  ∀ (vl : VL) (s : State) (b : Fin 16) (ix : Option (Fin 16)) (sc : Fin 4) (d8 : BitVec 8) (d32 : BitVec 32) (len : Nat),
    let base : Int := (s.readG b).toNat
    let index : Int := indexInt ix sc s
    ((effectiveAddress vl len (.base b .none) s).toNat : Int) = base ∧
    ((effectiveAddress vl len (.base b (.d8 d8)) s).toNat : Int) = (base + d8.toInt * vl.bytes) % 2 ^ 64 ∧
    ((effectiveAddress vl len (.base b (.d32 d32)) s).toNat : Int) = (base + d32.toInt) % 2 ^ 64 ∧
    ((effectiveAddress vl len (.sib b ix sc .none) s).toNat : Int) = (base + index) % 2 ^ 64 ∧
    ((effectiveAddress vl len (.sib b ix sc (.d8 d8)) s).toNat : Int) = (base + index + d8.toInt * vl.bytes) % 2 ^ 64 ∧
    ((effectiveAddress vl len (.sib b ix sc (.d32 d32)) s).toNat : Int) = (base + index + d32.toInt) % 2 ^ 64 ∧
    ((effectiveAddress vl len (.sibNoBase ix sc d32) s).toNat : Int) = (index + d32.toInt) % 2 ^ 64 ∧
    ((effectiveAddress vl len (.ripRel d32) s).toNat : Int) = (s.rip.toNat + len + d32.toInt) % 2 ^ 64 ∧
    (∀ o : Operands, o.src2 = .mem (.ripRel d32) → o.length = 11) ∧
    (VL.v128.bytes, VL.v256.bytes, VL.v512.bytes) = (16, 32, 64)

/-- R50, R51: element j of a memory source is the byte at EA+2j (low) and the byte at EA+2j+1 (high), in the launch memory or as
ReadOracle answers each byte (whatever it answers: a free value, log 7); with suppression, for the elements that are read. That
byte b of the operand is answered at history draws + b is the model's choice (log 8). -/
def Obligations.MemorySourceLayout : Prop :=
  ∀ (vl : VL) (o : Operands) (m : MemOp) (s : State) (j : Nat), o.src2 = .mem m → j < vl.lanes →
    (s.cfg.suppressMasked = false ∨ enabled (writemask o.kw s) j = true) →
    (s.cfg.readSource = .launchMemory → element (src2Value vl o s) j =
      memByte s (operandAddress vl o m s) (2 * j + 1) ++ memByte s (operandAddress vl o m s) (2 * j)) ∧
    (s.cfg.readSource = .oracle → element (src2Value vl o s) j =
      Config.readOracle (s.draws + (2 * j + 1)) (operandAddress vl o m s + BitVec.ofNat 64 (2 * j + 1)) ++
        Config.readOracle (s.draws + 2 * j) (operandAddress vl o m s + BitVec.ofNat 64 (2 * j)))

/-- R61: by default MemAdmit is asked for the full width; with suppression for two bytes of each enabled element only, and where
none is enabled no access is made. -/
def Obligations.AdmissionOfTheDataRead : Prop :=
  ∀ (vl : VL) (o : Operands) (m : MemOp) (s : State), o.src2 = .mem m →
    (s.cfg.suppressMasked = false →
      src2Admit vl o s = memAdmit s.cfg.admits ⟨operandAddress vl o m s, vl.bytes, .read, defaultSegment m, 0⟩) ∧
    (s.cfg.suppressMasked = true →
      (src2Admit vl o s = .ok ↔ ∀ j, j < vl.lanes → enabled (writemask o.kw s) j = true →
        memAdmit s.cfg.admits ⟨operandAddress vl o m s + BitVec.ofNat 64 (2 * j), 2, .read, defaultSegment m, 2 * j⟩ = .ok))

/-- R61, R133: the value of a masked-off memory element cannot reach the result. -/
def Obligations.MaskedOffBytesNeverMatter : Prop :=
  ∀ (i : Instr) (m : MemOp) (s t : State) (mem' : List Host.Cell), i.operands.src2 = .mem m →
    (∀ b, b < i.form.vl.bytes → enabled (writemask i.operands.kw s) (b / 2) = true →
      memByte { s with mem := mem' } (operandAddress i.form.vl i.operands m s) b =
        memByte s (operandAddress i.form.vl i.operands m s) b) →
    exec i s = .next t → exec i { s with mem := mem' } = .next { t with mem := mem' }

/-- R53: a register form makes no data access: memory, MemAdmit and ReadOracle have no effect on it. -/
def Obligations.RegisterFormsMakeNoAccess : Prop :=
  ∀ (i : Instr) (r : Fin 32) (s t : State) (mem' : List Host.Cell) (admits' : AdmitTable) (src' : ReadSource),
    i.operands.src2 = .reg r → exec i s = .next t →
    exec i { s with mem := mem', cfg := { s.cfg with admits := admits', readSource := src' } } =
      .next { t with mem := mem', cfg := { t.cfg with admits := admits', readSource := src' } }

/-- R59, R67, R92, R175, R176: the chip's canonical rule for 48 or 57 address bits, as the optional list `canonicalRules` (the
model's, log 4) in front of any table. Of an access at `ea`, a read of its bytes `off` to `off + n - 1` is answered #SS in the
stack segment and #GP elsewhere where one of them lies in the hole or over the top of the address space, and as the table behind
answers it where none does. The stack segment is that of a memory form whose base is RSP (4) or RBP (5), and of no other. -/
def Obligations.CanonicalCheckMirrorsTheChip : Prop :=
  (∀ (bits : Nat) (t : AdmitTable) (ea : Word) (off n : Nat) (seg : Segment), bits ∈ [48, 57] → 0 < n → off + n ≤ 64 →
    let t' : AdmitTable := { t with rules := canonicalRules bits ++ t.rules }
    let r : Request := ⟨ea + BitVec.ofNat 64 off, n, .read, seg, off⟩
    let canonical (k : Nat) : Prop := ea.toNat + k < 2 ^ (bits - 1) ∨
      (2 ^ 64 - 2 ^ (bits - 1) ≤ ea.toNat + k ∧ ea.toNat + k < 2 ^ 64)
    ((∃ k, off ≤ k ∧ k < off + n ∧ ¬ canonical k) → memAdmit t' r = (if seg = .stack then .ss else .gp)) ∧
    ((∀ k, off ≤ k → k < off + n → canonical k) → memAdmit t' r = memAdmit t r)) ∧
  (∀ (b : Fin 16) (d : Disp), defaultSegment (.base b d) = .stack ↔ b = 4 ∨ b = 5) ∧
  (∀ (b : Fin 16) (ix : Option (Fin 16)) (sc : Fin 4) (d : Disp), defaultSegment (.sib b ix sc d) = .stack ↔ b = 4 ∨ b = 5) ∧
  (∀ (ix : Option (Fin 16)) (sc : Fin 4) (d : BitVec 32),
    defaultSegment (.sibNoBase ix sc d) = .other ∧ defaultSegment (.ripRel d) = .other)

/-! ### The six instructions -/

/-- R136, R137, R138: each VPCMPW form, ready, with an accepted immediate and an admitted second source, completes with exactly
the effect of R133 to R135, signed. -/
def Obligations.VpcmpwCompletesWithItsEffect : Prop :=
  ∀ (o : Operands) (s : State),
    (canComplete .v128 o s = true → ∃ t, exec (.vpcmpwXmm o) s = .next t ∧ FormEffect true .v128 o s t) ∧
    (canComplete .v256 o s = true → ∃ t, exec (.vpcmpwYmm o) s = .next t ∧ FormEffect true .v256 o s t) ∧
    (canComplete .v512 o s = true → ∃ t, exec (.vpcmpwZmm o) s = .next t ∧ FormEffect true .v512 o s t)

/-- R139, R140, R141: the same of each VPCMPUW form, unsigned. -/
def Obligations.VpcmpuwCompletesWithItsEffect : Prop :=
  ∀ (o : Operands) (s : State),
    (canComplete .v128 o s = true → ∃ t, exec (.vpcmpuwXmm o) s = .next t ∧ FormEffect false .v128 o s t) ∧
    (canComplete .v256 o s = true → ∃ t, exec (.vpcmpuwYmm o) s = .next t ∧ FormEffect false .v256 o s t) ∧
    (canComplete .v512 o s = true → ∃ t, exec (.vpcmpuwZmm o) s = .next t ∧ FormEffect false .v512 o s t)

/-- A form completes exactly under those conditions: nothing else stops it, and none of them can fail. -/
def Obligations.CompletesExactlyWhenReady : Prop :=
  ∀ (i : Instr) (s : State), (∃ t, exec i s = .next t) ↔ canComplete i.form.vl i.operands s = true

/-- The frame of every form (R26, R27, R29, R30, R54): only the destination opmask, rip and the model's own draws may differ. A
register form leaves draws; a memory form advances it by VL/8, the model's choice of how ReadOracle's history moves (log 8). -/
def Obligations.FormFrame : Prop :=
  ∀ (i : Instr) (s t : State), exec i s = .next t →
    (∀ r, r ≠ i.operands.kd → t.readK r = s.readK r) ∧ SameElsewhere s t ∧
    (∀ x, i.operands.src2 = .reg x → t.draws = s.draws) ∧
    (∀ m, i.operands.src2 = .mem m → t.draws = s.draws + i.form.vl.bytes)

/-- R29, R143: no status flag (and no MXCSR bit) is written, and none is read. -/
def Obligations.EflagsNeitherReadNorWritten : Prop :=
  ∀ (i : Instr) (s t : State) (e x : BitVec 32), exec i s = .next t →
    t.eflags = s.eflags ∧ t.mxcsr = s.mxcsr ∧
    exec i { s with eflags := e, mxcsr := x } = .next { t with eflags := e, mxcsr := x }

/-- R2: the CPUID expression of each vector length. -/
def Obligations.CpuidExpressions : Prop :=
  ∀ c : Launch,
    (cpuidOk .v128 c = true ↔ (c.hasAvx512vl = true ∧ c.hasAvx512bw = true) ∨ c.hasAvx10_1 = true) ∧
    (cpuidOk .v256 c = true ↔ (c.hasAvx512vl = true ∧ c.hasAvx512bw = true) ∨ c.hasAvx10_1 = true) ∧
    (cpuidOk .v512 c = true ↔ c.hasAvx512bw = true ∨ c.hasAvx10_1 = true)

/-- R107: a form whose CPUID expression is false, or any form when the OS has not enabled the state, raises #UD, with a cause
that holds (which one, where both do, is the model's: log 15). -/
def Obligations.UnavailableFormIsUd : Prop :=
  ∀ (i : Instr) (s : State), s.cfg.mode = .bits64 → (s.cfg.osAvx512Enabled = false ∨ cpuidOk i.form.vl s.cfg = false) →
    ∃ c, exec i s = .fault (.ud s.rip c) ∧
      ((c = .osDisabled ∧ s.cfg.osAvx512Enabled = false) ∨ (c = .cpuid ∧ cpuidOk i.form.vl s.cfg = false))

/-- R174: #NM when CR0.TS is 1 and none of the #UD conditions holds. -/
def Obligations.TaskSwitchedIsNm : Prop :=
  ∀ (i : Instr) (s : State), s.cfg.mode = .bits64 → s.cfg.osAvx512Enabled = true → cpuidOk i.form.vl s.cfg = true →
    s.cfg.cr0Ts = true → exec i s = .fault (.nm s.rip)

/-- R106: with imm8[7:3] not 0, policy `refuse` (the default) gives no meaning, and policy `ignore` executes with imm8[2:0];
neither is a fault of its own. -/
def Obligations.ReservedImmediateBits : Prop :=
  State.reset.cfg.imm8Policy = .refuse ∧
  (∀ (i : Instr) (s : State), formReady i.form.vl s = true → s.cfg.imm8Policy = .refuse → 8 ≤ i.operands.imm8.toNat →
    exec i s = .refused .reservedImm8) ∧
  (∀ (f : Form) (o : Operands) (s : State), s.cfg.imm8Policy = .ignore →
    exec (f.instr o) s = exec (f.instr { o with imm8 := o.imm8 &&& 7 }) s)

/-- R175, R176, R177, R56: a memory form that is ready and whose read MemAdmit turns down ends in the fault it names, at this
rip, or in the refusal for device memory. -/
def Obligations.DataReadStops : Prop :=
  ∀ (i : Instr) (s : State), formReady i.form.vl s = true → immAccepted i.operands.imm8 s.cfg = true →
    (src2Admit i.form.vl i.operands s = .ss → exec i s = .fault (.ss s.rip)) ∧
    (src2Admit i.form.vl i.operands s = .gp → exec i s = .fault (.gp s.rip)) ∧
    (∀ info, src2Admit i.form.vl i.operands s = .pf info → exec i s = .fault (.pf s.rip info)) ∧
    (src2Admit i.form.vl i.operands s = .device → exec i s = .refused .deviceMemory)

/-- R172, R178: the vector numbers and error codes of the class; no other exception, in particular no alignment check (17). -/
def Obligations.ExceptionVectors : Prop :=
  (∀ rip c, (Fault.ud rip c).vector = 6 ∧ (Fault.ud rip c).errorCode = none) ∧
  (∀ rip, (Fault.nm rip).vector = 7 ∧ (Fault.nm rip).errorCode = none) ∧
  (∀ rip, (Fault.ss rip).vector = 12 ∧ (Fault.ss rip).errorCode = some 0) ∧
  (∀ rip, (Fault.gp rip).vector = 13 ∧ (Fault.gp rip).errorCode = some 0) ∧
  (∀ rip info, (Fault.pf rip info).vector = 14 ∧ (Fault.pf rip info).errorCode = some info.code) ∧
  (∀ f : Fault, f.vector ∈ [6, 7, 12, 13, 14])

/-! ### The machine -/

/-- A step runs the decoded instruction: where the mode is 64-bit, the bytes at rip decode, and MemAdmit admits the fetch of the
whole length short of the top of the address space, step is exec of it and nothing around it. -/
def Obligations.StepRunsTheDecodedInstr : Prop :=
  ∀ (s : State) (i : Instr) (n : Nat), s.cfg.mode = .bits64 → decode (window s) = .instr i n →
    memAdmit s.cfg.admits ⟨s.rip, n, .fetch, .other, 0⟩ = .ok → s.rip.toNat + n < 2 ^ 64 →
    i.wellFormed = true ∧ step s = exec i s

/-- R8, R60, R99, R181, R28: what stops a step before an instruction runs, in order: a mode other than 64-bit (log 2), MemAdmit's
answer to the fetch, a rip + L that would reach 2^64 (log 6), the decoder's #UD or refusal. The length asked for bytes that are no
instruction is the model's deduction (log 5), and a fetch answered `device` is a case the model names (log 4). -/
def Obligations.OrderOfStops : Prop :=
  ∀ s : State,
    let n := (decode (window s)).consumed
    let answer := memAdmit s.cfg.admits ⟨s.rip, n, .fetch, .other, 0⟩
    (s.cfg.mode ≠ .bits64 → step s = .refused (.mode s.cfg.mode) ∧ ∀ i, exec i s = .refused (.mode s.cfg.mode)) ∧
    (s.cfg.mode = .bits64 →
      (answer = .gp → step s = .fault (.gp s.rip)) ∧ (answer = .ss → step s = .fault (.ss s.rip)) ∧
      (∀ info, answer = .pf info → step s = .fault (.pf s.rip info)) ∧
      (answer = .outsideText → step s = .refused .outsideText) ∧ (answer = .device → step s = .refused .deviceMemory) ∧
      (answer = .ok → 2 ^ 64 ≤ s.rip.toNat + n → step s = .refused .ripWouldWrap) ∧
      (answer = .ok → s.rip.toNat + n < 2 ^ 64 →
        (∀ c m, decode (window s) = .ud c m → step s = .fault (.ud s.rip c)) ∧
        (∀ r m, decode (window s) = .refuse r m → step s = .refused (.encoding r))))

/-- R185, R186: whatever fault ends a step, it reports the address of the instruction that faulted. -/
def Obligations.FaultsReportTheFaultingRip : Prop :=
  ∀ (s : State) (f : Fault), step s = .fault f → f.rip = s.rip

/-- R147, R28: a completed step advances rip by the length of the instruction it ran, 7 to 12, and never wraps it. -/
def Obligations.StepFallsThrough : Prop :=
  ∀ s t : State, step s = .next t → ∃ i n, decode (window s) = .instr i n ∧ n = i.length ∧ 7 ≤ n ∧ n ≤ 12 ∧
    t.rip.toNat = s.rip.toNat + n

/-- Whole machine: no step changes a vector or general register, EFLAGS, MXCSR, a byte of memory or the configuration, and it
changes at most one opmask register, whose bits 63:32 it clears (R26, R27, R29, R30, R54, R65, R134). -/
def Obligations.StepFrame : Prop :=
  ∀ s t : State, step s = .next t → SameElsewhere s t ∧
    ∃ kd : Fin 8, (t.readK kd).toNat < 2 ^ 32 ∧ ∀ r, r ≠ kd → t.readK r = s.readK r

/-- Every step keeps the invariant: canonical memory, and bits 63:32 of every opmask register clear (R134). -/
def Obligations.StepKeepsInv : Prop := ∀ s t : State, Inv s → step s = .next t → Inv t

/-- The invariant holds after reset. -/
def Obligations.ResetHasInv : Prop := Inv State.reset

/-- What State.reset holds: the model's choices, of log 9, log 10 and log 11, and 00_scope R11's defaults. -/
def Obligations.ResetValues : Prop :=
  (∀ i, State.reset.readK i = 0) ∧ (∀ i, State.reset.readV i = 0) ∧ (∀ i, State.reset.readG i = 0) ∧
    State.reset.rip = 0xFFFFFFF0 ∧ (∀ a, Memory.read State.reset.mem a = 0) ∧
    State.reset.cfg.imm8Policy = .refuse ∧ State.reset.cfg.suppressMasked = false ∧ State.reset.cfg.mode = .bits64

/-- From bytes to effect: where the bytes of a well-formed instruction stand at `rip`, their fetch is admitted, and the form can
complete, the step is the instruction's effect. -/
def Obligations.EncodedInstructionTakesEffect : Prop :=
  ∀ (i : Instr) (s : State), i.wellFormed = true →
    (∀ j (h : j < (encode i).length), Memory.read s.mem (byteAddr s.rip j) = (encode i)[j]) →
    memAdmit s.cfg.admits ⟨s.rip, i.length, .fetch, .other, 0⟩ = .ok → s.rip.toNat + i.length < 2 ^ 64 →
    canComplete i.form.vl i.operands s = true →
    ∃ t, step s = .next t ∧ FormEffect i.form.signed i.form.vl i.operands s t ∧ t.rip.toNat = s.rip.toNat + i.length

/-- An instruction placed by withFetchWord (log 21) is what the very next step runs: in any state of 64-bit mode with canonical
memory, `rip` far enough from the top of the address space. -/
def Obligations.PlacedInstructionRuns : Prop :=
  ∀ (s : State) (nbits w : Nat) (i : Instr), Memory.wf s.mem = true → s.cfg.mode = .bits64 → s.rip.toNat + 12 < 2 ^ 64 →
    decodeTableWord nbits w = some i → step (s.withFetchWord nbits w) = exec i (s.withFetchWord nbits w)

/-! ### Programs (R215) and the family's power-up (R211) -/

/-- R215, R147, R60: a launched program (`Program.launch`, log 21) is a straight line. After n completed steps rip is at its n-th
instruction, which is what the next step runs; nothing but opmask registers, rip and draws has changed; the run has ended exactly
when n is the program's length; and there the bytes at base + T lie outside the declared text and are never fetched as an instruction. An empty program has ended
at its launch (the model's choice, log 29). -/
def Obligations.StraightLineRunAdvances : Prop :=
  ∀ (p : Program) (s : State), (∀ i ∈ p.code, i.wellFormed = true) → Memory.wf s.mem = true → s.cfg.mode = .bits64 →
    p.base.toNat + p.size < 2 ^ 64 → ∀ (n : Nat) (t : State), n ≤ p.code.length → p.run n (p.launch s) = .next t →
      t.rip.toNat = p.base.toNat + codeSize (p.code.take n) ∧ SameElsewhere (p.launch s) t ∧
      (p.ended t = true ↔ n = p.code.length) ∧ (∀ i, p.code[n]? = some i → step t = exec i t) ∧
      (n = p.code.length → step t = .refused .outsideText)

/-- R215: a program whose instructions can complete wherever only opmask registers, rip and draws have changed has a final state,
at rip = base + T. That of an empty program is its launch state (the model's choice, log 29). -/
def Obligations.StraightLineRunEnds : Prop :=
  ∀ (p : Program) (s : State), (∀ i ∈ p.code, i.wellFormed = true) → Memory.wf s.mem = true → s.cfg.mode = .bits64 →
    p.base.toNat + p.size < 2 ^ 64 →
    (∀ i ∈ p.code, ∀ t, SameElsewhere (p.launch s) t → canComplete i.form.vl i.operands t = true) →
    ∃ t, p.finalState (p.launch s) = some t ∧ t.rip = p.endAddr ∧ SameElsewhere (p.launch s) t

/-- R215: a run that ends in a fault or a refusal has no final state. -/
def Obligations.StoppedRunHasNoFinalState : Prop :=
  ∀ (p : Program) (s : State) (n : Nat), n ≤ p.code.length →
    (∀ f, p.run n s = .fault f → p.finalState s = none) ∧ (∀ r, p.run n s = .refused r → p.finalState s = none)

/-- R211, the family's power-up as a state of the model (PRESUMED, log 9): registers cleared, rip FFFFFFF0H, CR0.TS clear, real
mode, so no step runs; and in 64-bit mode every form is #UD until the state is enabled. -/
def Obligations.PowerUpRunsNoForm : Prop :=
  (∀ i, State.powerUp.readK i = 0) ∧ (∀ i, State.powerUp.readV i = 0) ∧ (∀ i, State.powerUp.readG i = 0) ∧
    State.powerUp.rip = 0xFFFFFFF0 ∧ State.powerUp.cfg.cr0Ts = false ∧ State.powerUp.cfg.mode = .realAddress ∧
    step State.powerUp = .refused (.mode .realAddress) ∧
    ∀ i : Instr, exec i { State.powerUp with cfg := { State.powerUp.cfg with mode := .bits64 } } =
      .fault (.ud 0xFFFFFFF0 .osDisabled)
end

