-- ==== Sys2Proof/Laws/Decode.lean ====
section
/-!
SUPPORT. The decoder's fields as arithmetic on a byte, and the fields of the bytes the encoder writes.
-/

namespace Sys2Proof

theorem field_toNat (b : Byte) (lo w : Nat) : (field b lo w).toNat = b.toNat / 2 ^ lo % 2 ^ w := by
  simp [field, Nat.shiftRight_eq_div_pow]

theorem bit_eq (b : Byte) (i : Nat) : b.getLsbD i = decide (b.toNat / 2 ^ i % 2 = 1) := by
  simp [BitVec.getLsbD, Nat.testBit_eq_decide_div_mod_eq]

theorem inv_eq (b : Byte) (i : Nat) : inv b i = 1 - b.toNat / 2 ^ i % 2 := by
  unfold inv
  rw [bit_eq]
  have := Nat.mod_two_eq_zero_or_one (b.toNat / 2 ^ i)
  rcases this with h | h <;> simp [h]

theorem field_eq_iff (b : Byte) (lo w c : Nat) (hc : c < 2 ^ w) :
    field b lo w = BitVec.ofNat w c ↔ b.toNat / 2 ^ lo % 2 ^ w = c := by
  rw [← BitVec.toNat_inj, field_toNat, BitVec.toNat_ofNat, Nat.mod_eq_of_lt hc]

/-! Fields of the encoder's bytes. -/

theorem encFields_toNat (hi mid lo : Nat) (h1 : hi < 4) (h2 : mid < 8) (h3 : lo < 8) :
    (encFields hi mid lo).toNat = 64 * hi + 8 * mid + lo := by
  simp [encFields]; omega

theorem encP0_toNat (x b : Nat) : (encP0 x b).toNat = 0x93 + 64 * (1 - x) + 32 * (1 - b) := by
  simp [encP0]; omega

theorem encP1_toNat (s1 : Fin 32) : (encP1 s1).toNat = 0x85 + 8 * (15 - s1.val % 16) := by
  simp [encP1]; omega

theorem encP2_toNat (vl : VL) (s1 : Fin 32) (kw : Fin 8) :
    (encP2 vl s1 kw).toNat = 32 * vl.ll + 8 * (1 - s1.val / 16) + kw.val := by
  have : vl.ll ≤ 2 := by cases vl <;> simp [VL.ll]
  simp [encP2]; omega

/-- Four little-endian bytes are the value they were taken from. -/
theorem le32_join (d : BitVec 32) :
    d.extractLsb' 24 8 ++ d.extractLsb' 16 8 ++ d.extractLsb' 8 8 ++ d.extractLsb' 0 8 = d := by
  apply BitVec.eq_of_toNat_eq
  simp only [BitVec.toNat_append, BitVec.extractLsb'_toNat, Nat.shiftLeft_eq, Nat.shiftRight_eq_div_pow]
  have := d.isLt
  rw [← Nat.shiftLeft_eq, ← Nat.shiftLeft_eq, ← Nat.shiftLeft_eq,
    ← Nat.shiftLeft_add_eq_or_of_lt (by omega), ← Nat.shiftLeft_add_eq_or_of_lt (by omega),
    ← Nat.shiftLeft_add_eq_or_of_lt (by omega)]
  simp only [Nat.shiftLeft_eq]
  omega

theorem join32_toNat (d0 d1 d2 d3 : Byte) : (d3 ++ d2 ++ d1 ++ d0 : BitVec 32).toNat =
    d0.toNat + 2 ^ 8 * d1.toNat + 2 ^ 16 * d2.toNat + 2 ^ 24 * d3.toNat := by
  have h0 := d0.isLt; have h1 := d1.isLt; have h2 := d2.isLt
  simp only [BitVec.toNat_append]
  rw [← Nat.shiftLeft_add_eq_or_of_lt (by omega), ← Nat.shiftLeft_add_eq_or_of_lt (by omega),
    ← Nat.shiftLeft_add_eq_or_of_lt (by omega)]
  simp only [Nat.shiftLeft_eq]
  omega

open Sys2Proof.Machine

/-! The decoder on the bytes of a row. -/

theorem p0Defect_none (p0 : Byte) (h : p0.toNat % 16 = 3) : p0Defect p0 = none := by
  unfold p0Defect
  have h3 : field p0 0 3 = 3 := (field_eq_iff p0 0 3 3 (by decide)).2 (by omega)
  rw [bit_eq, if_neg (by simp; omega), if_neg (by simp [h3])]

theorem p1Defect_none (p1 : Byte) (h : p1.toNat / 128 = 1) (h' : p1.toNat % 8 = 5) : p1Defect p1 = none := by
  unfold p1Defect
  have h3 : field p1 0 2 = 1 := (field_eq_iff p1 0 2 1 (by decide)).2 (by omega)
  rw [bit_eq, bit_eq, if_neg (by simp; omega), if_neg (by simp; omega), if_neg (by simp [h3])]

theorem opcodeSigned_form (f : Form) : opcodeSigned f.opcode = some f.signed := by
  rcases f with ⟨_ | _, vl⟩ <;> simp [opcodeSigned, Form.opcode]

/-- A string that selects a row once z, b, L'L, R and R' are set aside is read from ModRM on. -/
theorem decode_row (sg : Bool) (p0 p1 p2 op m : Byte) (rest : List Byte) (h0 : p0.toNat % 16 = 3)
    (h1 : p1.toNat / 128 = 1) (h1' : p1.toNat % 8 = 5) (hop : opcodeSigned op = some sg) :
    decode (0x62 :: p0 :: p1 :: p2 :: op :: m :: rest) = Head.afterModrm ⟨sg, p0, p1, p2, m⟩ rest := by
  simp [decode, decodeEvex, p0Defect_none p0 h0, p1Defect_none p1 h1 h1', hop]

theorem vlOfLL_ll (p2 : Byte) (vl : VL) (h : p2.toNat / 32 % 4 = vl.ll) : vlOfLL (field p2 5 2) = some vl := by
  have : ∀ c, c < 4 → (field p2 5 2 = BitVec.ofNat 2 c ↔ vl.ll = c) := fun c hc => by
    rw [field_eq_iff _ _ _ _ hc]; simp [h]
  have e0 := this 0 (by omega); have e1 := this 1 (by omega); have e2 := this 2 (by omega)
  simp only [vlOfLL]
  have e0' : field p2 5 2 = 0 ↔ vl.ll = 0 := e0
  have e1' : field p2 5 2 = 1 ↔ vl.ll = 1 := e1
  have e2' : field p2 5 2 = 2 ↔ vl.ll = 2 := e2
  simp only [e0', e1', e2']
  cases vl <;> simp [VL.ll]

/-- The bytes of a row give its instruction, with whatever second source the rest spells. -/
theorem build_row (f : Form) (p0 p1 p2 op m : Byte) (h : EvexRow f p0 p1 p2 op) (src : Src2) (xu : Bool)
    (hx : xu = true → p0.toNat / 64 % 2 = 1) (imm : Byte) (n : Nat) :
    Head.build ⟨f.signed, p0, p1, p2, m⟩ src xu imm n =
      .instr (f.instr ⟨Head.kd ⟨f.signed, p0, p1, p2, m⟩, Head.kw ⟨f.signed, p0, p1, p2, m⟩,
        Head.s1 ⟨f.signed, p0, p1, p2, m⟩, src, imm⟩) n := by
  obtain ⟨h1, ⟨h2, h2'⟩, h3, ⟨h4, h4'⟩, h5, h6⟩ := h
  simp only [Head.build, bit_eq, vlOfLL_ll p2 f.vl h5]
  rw [if_neg (by simp; omega), if_neg (by simp; omega), if_neg (by simp; omega), if_neg]
  cases xu
  · simp
  · have := hx rfl; simp; omega

/-- The operand fields of a head, as 30_encoding R87, R88, R90 give them. -/
theorem headOperands (sg : Bool) (p0 p1 p2 m imm : Byte) (src : Src2) :
    HeadOperands p1 p2 m imm ⟨Head.kd ⟨sg, p0, p1, p2, m⟩, Head.kw ⟨sg, p0, p1, p2, m⟩, Head.s1 ⟨sg, p0, p1, p2, m⟩, src, imm⟩ := by
  constructor <;> simp only [Head.kd, Head.kw, Head.s1, Fin.ofNat, field_toNat, inv_eq] <;> omega

theorem mod_eq_iff (sg : Bool) (p0 p1 p2 m : Byte) (c : Nat) (hc : c < 4) :
    (Head.mod ⟨sg, p0, p1, p2, m⟩ = BitVec.ofNat 2 c) ↔ m.toNat / 64 = c := by
  have := m.isLt
  rw [Head.mod, field_eq_iff _ _ _ _ hc]; show m.toNat / 2 ^ 6 % 2 ^ 2 = c ↔ _; omega

theorem rm_eq_iff (sg : Bool) (p0 p1 p2 m : Byte) (c : Nat) (hc : c < 8) :
    (Head.rm ⟨sg, p0, p1, p2, m⟩ = BitVec.ofNat 3 c) ↔ m.toNat % 8 = c := by
  rw [Head.rm, field_eq_iff _ _ _ _ hc]; simp

end Sys2Proof
end

