-- ==== Sys2Proof/Laws/DecodeInv.lean ====
section
/-!
SUPPORT. The decoder read backwards: what a byte string looks like that decodes to an instruction.
-/

namespace Sys2Proof

open Sys2Proof.Machine

theorem p0Defect_none_inv (p0 : Byte) (h : p0Defect p0 = none) : p0.toNat % 16 = 3 := by
  unfold p0Defect at h
  rw [bit_eq] at h
  split_ifs at h with h1 h2
  have h3 : field p0 0 3 = BitVec.ofNat 3 3 := by simpa using h2
  rw [field_eq_iff _ _ _ _ (by omega)] at h3
  simp at h1; omega

theorem p1Defect_none_inv (p1 : Byte) (h : p1Defect p1 = none) : p1.toNat / 128 = 1 ∧ p1.toNat % 8 = 5 := by
  unfold p1Defect at h
  rw [bit_eq, bit_eq] at h
  split_ifs at h with h0 h1 h2
  have h3 : field p1 0 2 = BitVec.ofNat 2 1 := by simpa using h2
  rw [field_eq_iff _ _ _ _ (by omega)] at h3
  have := p1.isLt
  simp at h0 h1; omega

theorem opcodeSigned_inv (op : Byte) (sg : Bool) (h : opcodeSigned op = some sg) (vl : VL) : op = (Form.mk sg vl).opcode := by
  unfold opcodeSigned at h
  split_ifs at h with h1 h2 <;> simp at h <;> subst h <;> simp [Form.opcode, *]

/-- A first byte other than 62H never gives an instruction. -/
theorem decodeOther_inv (b : Byte) (r : List Byte) (i n) : decodeOther b r ≠ .instr i n := by
  unfold decodeOther
  split
  · cases r with
    | nil => simp
    | cons b1 r => simp only; split <;> simp
  · split <;> simp

/-- Whatever decodes to an instruction has the fixed part of a row, and is read from ModRM on. -/
theorem decode_inv {bs : List Byte} {i : Instr} {n : Nat} (h : decode bs = .instr i n) :
    ∃ sg p0 p1 p2 op m rest, bs = 0x62 :: p0 :: p1 :: p2 :: op :: m :: rest ∧ p0.toNat % 16 = 3 ∧ p1.toNat / 128 = 1 ∧
      p1.toNat % 8 = 5 ∧ opcodeSigned op = some sg ∧ Head.afterModrm ⟨sg, p0, p1, p2, m⟩ rest = .instr i n := by
  cases bs with
  | nil => simp [decode] at h
  | cons b0 r =>
    simp only [decode] at h
    by_cases hb : b0 = 0x62
    · rw [if_pos hb] at h
      subst hb
      cases r with
      | nil => simp [decodeEvex] at h
      | cons p0 r0 =>
        cases hp0 : p0Defect p0 with
        | some d => simp [decodeEvex, hp0] at h
        | none =>
          cases r0 with
          | nil => simp [decodeEvex, hp0] at h
          | cons p1 r1 =>
            cases hp1 : p1Defect p1 with
            | some d => simp [decodeEvex, hp0, hp1] at h
            | none =>
              cases r1 with
              | nil => simp [decodeEvex, hp0, hp1] at h
              | cons p2 r1 =>
                cases r1 with
                | nil => simp [decodeEvex, hp0, hp1] at h
                | cons op r2 =>
                  cases hop : opcodeSigned op with
                  | none => simp [decodeEvex, hp0, hp1, hop] at h
                  | some sg =>
                    cases r2 with
                    | nil => simp [decodeEvex, hp0, hp1, hop] at h
                    | cons m r3 =>
                      simp only [decodeEvex, hp0, hp1, hop] at h
                      exact ⟨sg, p0, p1, p2, op, m, r3, rfl, p0Defect_none_inv _ hp0, (p1Defect_none_inv _ hp1).1,
                        (p1Defect_none_inv _ hp1).2, hop, h⟩
    · rw [if_neg hb] at h; exact absurd h (decodeOther_inv b0 r i n)

theorem vlOfLL_inv (p2 : Byte) (vl : VL) (h : vlOfLL (field p2 5 2) = some vl) : p2.toNat / 32 % 4 = vl.ll := by
  unfold vlOfLL at h
  have := fun c hc => field_eq_iff p2 5 2 c hc
  have e0 : field p2 5 2 = 0 ↔ _ := this 0 (by omega)
  have e1 : field p2 5 2 = 1 ↔ _ := this 1 (by omega)
  have e2 : field p2 5 2 = 2 ↔ _ := this 2 (by omega)
  split_ifs at h with h0 h1 h2 <;> simp at h <;> subst h
  · simpa [VL.ll] using e0.1 h0
  · simpa [VL.ll] using e1.1 h1
  · simpa [VL.ll] using e2.1 h2

/-- Whatever `build` makes an instruction of has no reserved bit set (30_encoding R100 to R103, R105). -/
theorem build_inv {h : Head} {src xu imm n i n'} (e : h.build src xu imm n = .instr i n') :
    n' = n ∧ ∃ vl, i = Form.instr ⟨h.signed, vl⟩ ⟨h.kd, h.kw, h.s1, src, imm⟩ ∧ h.p2.toNat / 128 = 0 ∧ h.p2.toNat / 16 % 2 = 0 ∧
      h.p2.toNat / 32 % 4 = vl.ll ∧ h.p0.toNat / 128 = 1 ∧ h.p0.toNat / 16 % 2 = 1 ∧ (xu = true → h.p0.toNat / 64 % 2 = 1) := by
  unfold Head.build at e
  split at e
  · simp at e
  split at e
  · simp at e
  next hz hb =>
  cases hv : vlOfLL (field h.p2 5 2) with
  | none => simp [hv] at e
  | some vl =>
    simp only [hv] at e
    split at e
    · simp at e
    split at e
    · simp at e
    next hR hX =>
    simp only [Decoded.instr.injEq] at e
    simp only [bit_eq, decide_eq_true_eq, Bool.and_eq_true, Bool.not_eq_true', Bool.not_eq_false,
      Bool.and_eq_true, decide_eq_false_iff_not, not_and] at hz hb hR hX
    have := h.p2.isLt; have := h.p0.isLt
    refine ⟨e.2.symm, vl, e.1.symm, by omega, by omega, vlOfLL_inv _ _ hv, by omega, by omega, fun hx => ?_⟩
    have := hX hx
    simp at this; omega

theorem finish_inv {h : Head} {src xu n bs i n'} (e : h.finish src xu n bs = .instr i n') :
    ∃ imm r, bs = imm :: r ∧ h.build src xu imm (n+1) = .instr i n' := by
  cases bs with
  | nil => simp [Head.finish] at e
  | cons imm r => exact ⟨imm, r, rfl, e⟩

theorem disp32_inv {h : Head} {mk xu n bs i n'} (e : h.disp32 mk xu n bs = .instr i n') :
    ∃ d0 d1 d2 d3 imm r, bs = d0 :: d1 :: d2 :: d3 :: imm :: r ∧ h.build (.mem (mk (d3 ++ d2 ++ d1 ++ d0))) xu imm (n+5) = .instr i n' := by
  unfold Head.disp32 at e
  split at e
  · next d0 d1 d2 d3 r =>
    obtain ⟨imm, r', rfl, h'⟩ := finish_inv e
    exact ⟨d0, d1, d2, d3, imm, r', rfl, h'⟩
  · simp at e

/-- The bytes after ModRM, through imm8, that a second source is spelled by (30_encoding R91): bytes, source, whether X is unused,
imm8, and the length of the instruction. -/
inductive OperandBytes (h : Head) : List Byte → Src2 → Bool → Byte → Nat → Prop
  | reg (imm) : h.mod = 3 → OperandBytes h [imm] (.reg h.s2) false imm 7
  | rip (d0 d1 d2 d3 imm) : h.mod ≠ 3 → h.rm ≠ 4 → h.mod = 0 → h.rm = 5 →
      OperandBytes h [d0,d1,d2,d3,imm] (.mem (.ripRel (d3++d2++d1++d0))) true imm 11
  | base0 (imm) : h.mod ≠ 3 → h.rm ≠ 4 → h.mod = 0 → h.rm ≠ 5 →
      OperandBytes h [imm] (.mem (.base (h.baseReg h.rm) .none)) true imm 7
  | base1 (d imm) : h.mod ≠ 3 → h.rm ≠ 4 → h.mod = 1 → OperandBytes h [d, imm] (.mem (.base (h.baseReg h.rm) (.d8 d))) true imm 8
  | base2 (d0 d1 d2 d3 imm) : h.mod ≠ 3 → h.rm ≠ 4 → h.mod ≠ 0 → h.mod ≠ 1 →
      OperandBytes h [d0,d1,d2,d3,imm] (.mem (.base (h.baseReg h.rm) (.d32 (d3++d2++d1++d0)))) true imm 11
  | nobase (sib d0 d1 d2 d3 imm) : h.mod ≠ 3 → h.rm = 4 → h.mod = 0 → field sib 0 3 = 5 →
      OperandBytes h [sib,d0,d1,d2,d3,imm]
        (.mem (.sibNoBase (h.indexReg (field sib 3 3)) (Fin.ofNat 4 (field sib 6 2).toNat) (d3++d2++d1++d0))) false imm 12
  | sib0 (sib imm) : h.mod ≠ 3 → h.rm = 4 → h.mod = 0 → field sib 0 3 ≠ 5 →
      OperandBytes h [sib,imm]
        (.mem (.sib (h.baseReg (field sib 0 3)) (h.indexReg (field sib 3 3)) (Fin.ofNat 4 (field sib 6 2).toNat) .none)) false imm 8
  | sib1 (sib d imm) : h.mod ≠ 3 → h.rm = 4 → h.mod = 1 →
      OperandBytes h [sib,d,imm]
        (.mem (.sib (h.baseReg (field sib 0 3)) (h.indexReg (field sib 3 3)) (Fin.ofNat 4 (field sib 6 2).toNat) (.d8 d))) false imm 9
  | sib2 (sib d0 d1 d2 d3 imm) : h.mod ≠ 3 → h.rm = 4 → h.mod ≠ 0 → h.mod ≠ 1 →
      OperandBytes h [sib,d0,d1,d2,d3,imm]
        (.mem (.sib (h.baseReg (field sib 0 3)) (h.indexReg (field sib 3 3)) (Fin.ofNat 4 (field sib 6 2).toNat) (.d32 (d3++d2++d1++d0)))) false imm 12

/-- Whatever `afterModrm` makes an instruction of begins with operand bytes. -/
theorem afterModrm_inv {h : Head} {bs i n} (e : h.afterModrm bs = .instr i n) :
    ∃ t r src xu imm n0, bs = t ++ r ∧ OperandBytes h t src xu imm n0 ∧ h.build src xu imm n0 = .instr i n := by
  unfold Head.afterModrm at e
  split at e
  · next h3 => obtain ⟨imm, r, rfl, hb⟩ := finish_inv e; exact ⟨[imm], r, _, _, _, _, rfl, .reg imm h3, hb⟩
  next h3 =>
  split at e
  · next h4 =>
    unfold Head.sibForms at e
    split at e
    · simp at e
    next sib r =>
    simp only at e
    split at e
    · next h5 =>
      obtain ⟨d0, d1, d2, d3, imm, r', rfl, hb⟩ := disp32_inv e
      exact ⟨[_,_,_,_,_,_], r', _, _, _, _, rfl, .nobase sib d0 d1 d2 d3 imm h3 h4 h5.1 h5.2, hb⟩
    next h5 =>
    unfold Head.dispByMod at e
    split at e
    · next h0 => obtain ⟨imm, r', rfl, hb⟩ := finish_inv e; exact ⟨[_,_], r', _, _, _, _, rfl, .sib0 sib imm h3 h4 h0 (fun x => h5 ⟨h0, x⟩), hb⟩
    split at e
    · next h0 h1 =>
      cases r with
      | nil => simp at e
      | cons d r => obtain ⟨imm, r', rfl, hb⟩ := finish_inv e; exact ⟨[_,_,_], r', _, _, _, _, rfl, .sib1 sib d imm h3 h4 h1, hb⟩
    · next h0 h1 =>
      obtain ⟨d0, d1, d2, d3, imm, r', rfl, hb⟩ := disp32_inv e
      exact ⟨[_,_,_,_,_,_], r', _, _, _, _, rfl, .sib2 sib d0 d1 d2 d3 imm h3 h4 h0 h1, hb⟩
  next h4 =>
  split at e
  · next h5 =>
    obtain ⟨d0, d1, d2, d3, imm, r', rfl, hb⟩ := disp32_inv e
    exact ⟨[_,_,_,_,_], r', _, _, _, _, rfl, .rip d0 d1 d2 d3 imm h3 h4 h5.1 h5.2, hb⟩
  next h5 =>
  unfold Head.dispByMod at e
  split at e
  · next h0 => obtain ⟨imm, r', rfl, hb⟩ := finish_inv e; exact ⟨[_], r', _, _, _, _, rfl, .base0 imm h3 h4 h0 (fun x => h5 ⟨h0, x⟩), hb⟩
  split at e
  · next h0 h1 =>
    cases bs with
    | nil => simp at e
    | cons d r => obtain ⟨imm, r', rfl, hb⟩ := finish_inv e; exact ⟨[_,_], r', _, _, _, _, rfl, .base1 d imm h3 h4 h1, hb⟩
  · next h0 h1 =>
    obtain ⟨d0, d1, d2, d3, imm, r', rfl, hb⟩ := disp32_inv e
    exact ⟨[_,_,_,_,_], r', _, _, _, _, rfl, .base2 d0 d1 d2 d3 imm h3 h4 h0 h1, hb⟩

/-- The decoder reads operand bytes as what they spell, whatever follows. -/
theorem operandBytes_read {h : Head} {t src xu imm n0} (ht : OperandBytes h t src xu imm n0) (r : List Byte) :
    h.afterModrm (t ++ r) = h.build src xu imm n0 := by
  cases ht <;> simp_all [Head.afterModrm, Head.finish, Head.disp32, Head.sibForms, Head.dispByMod]


theorem form_instr_parts (f : Form) (o : Operands) : (f.instr o).operands = o ∧ (f.instr o).form = f := by
  rcases f with ⟨_|_, _|_|_⟩ <;> exact ⟨rfl, rfl⟩
theorem form_instr_wellFormed (f : Form) (o : Operands) : (f.instr o).wellFormed = o.src2.wellFormed := by
  rcases f with ⟨_|_, _|_|_⟩ <;> rfl

/-- What the operand bytes spell is well formed, and their number is the length's. -/
theorem operandBytes_wf {h : Head} {t src xu imm n0} (ht : OperandBytes h t src xu imm n0) :
    src.wellFormed = true ∧ n0 = 7 + src.extraBytes ∧ t.length + 6 = n0 := by
  have hix : ∀ f, indexAllowed (h.indexReg f) = true := by
    intro f; simp only [indexAllowed, Head.indexReg]; split <;> simp_all
  have hb : ∀ f : BitVec 3, (h.baseReg f).val % 8 = f.toNat := by
    intro f; have := f.isLt; simp only [Head.baseReg, Fin.ofNat, inv_eq]; omega
  have hr : ∀ (f : BitVec 3) (c : Nat), c < 8 → (f ≠ BitVec.ofNat 3 c → f.toNat ≠ c) := by
    intro f c hc h1 h2; apply h1; apply BitVec.eq_of_toNat_eq; simp; omega
  cases ht <;> refine ⟨?_, rfl, rfl⟩ <;> simp_all [Src2.wellFormed, MemOp.wellFormed, baseNeedsNoSib, dispAllowed]

end Sys2Proof
end

