-- ==== Sys2Proof/Laws/Memory.lean ====
section
/-!
SUPPORT. Memory: a write keeps the canonical form, a read after a write, and the value of little-endian bytes.
-/

namespace Sys2Proof.Machine

@[simp] theorem Memory.read_nil (a : Nat) : Memory.read [] a = Memory.unlisted := rfl

theorem Memory.wfFrom_mono {lo lo' : Nat} (h : lo' ≤ lo) :
    ∀ {m : List Host.Cell}, Memory.wfFrom lo m = true → Memory.wfFrom lo' m = true
  | [], _ => rfl
  | (x, c) :: m, hm => by
    simp only [Memory.wfFrom, Bool.and_eq_true, decide_eq_true_eq] at hm ⊢
    exact ⟨⟨⟨le_trans h hm.1.1.1, hm.1.1.2⟩, hm.1.2⟩, hm.2⟩

/-- Nothing below `lo` is listed. -/
theorem Memory.read_below {lo a : Nat} (h : a < lo) :
    ∀ {m : List Host.Cell}, Memory.wfFrom lo m = true → Memory.read m a = Memory.unlisted
  | [], _ => rfl
  | (x, c) :: m, hm => by
    simp only [Memory.wfFrom, Bool.and_eq_true, decide_eq_true_eq] at hm
    rw [Memory.read, if_neg (by omega)]
    exact Memory.read_below (by omega) hm.2

theorem Memory.push_wfFrom {a lo : Nat} {b : Byte} {m : List Host.Cell} (hlo : lo ≤ a) (ha : a < 2 ^ 64)
    (hm : Memory.wfFrom (a + 1) m = true) : Memory.wfFrom lo (Memory.push a b m) = true := by
  unfold Memory.push
  split
  · exact Memory.wfFrom_mono (by omega) hm
  · next hb => simp [Memory.wfFrom, hlo, hm, hb]; simpa using ha

theorem Memory.write_wfFrom {a : Nat} {b : Byte} (ha : a < 2 ^ 64) :
    ∀ {m : List Host.Cell} {lo : Nat}, lo ≤ a → Memory.wfFrom lo m = true →
      Memory.wfFrom lo (Memory.write m a b) = true
  | [], lo, hlo, _ => Memory.push_wfFrom hlo ha rfl
  | (x, c) :: m, lo, hlo, hm => by
    have hm' := hm
    simp only [Memory.wfFrom, Bool.and_eq_true, decide_eq_true_eq] at hm'
    obtain ⟨⟨⟨hx, hx64⟩, hc⟩, hr⟩ := hm'
    unfold Memory.write
    split
    · next h =>
      refine Memory.push_wfFrom hlo ha ?_
      simp only [Memory.wfFrom, Bool.and_eq_true, decide_eq_true_eq]
      exact ⟨⟨⟨by omega, hx64⟩, hc⟩, hr⟩
    · split
      · next h => subst h; exact Memory.push_wfFrom hlo ha hr
      · simp only [Memory.wfFrom, Bool.and_eq_true, decide_eq_true_eq]
        exact ⟨⟨⟨hx, hx64⟩, hc⟩, Memory.write_wfFrom ha (by omega) hr⟩

/-- A write keeps the canonical form. -/
theorem Memory.write_wf {m : List Host.Cell} {a : Nat} {b : Byte} (ha : a < 2 ^ 64) (hm : Memory.wf m = true) :
    Memory.wf (Memory.write m a b) = true :=
  Memory.write_wfFrom ha (Nat.zero_le _) hm

theorem Memory.read_push {a lo : Nat} {b : Byte} {m : List Host.Cell} (hm : Memory.wfFrom lo m = true) (h : a < lo)
    (x : Nat) : Memory.read (Memory.push a b m) x = if x = a then b else Memory.read m x := by
  unfold Memory.push
  by_cases hx : x = a
  · subst hx
    split
    · next hb => simpa [hb] using Memory.read_below h hm
    · simp [Memory.read]
  · split
    · simp
    · simp [Memory.read, Ne.symm hx]

/-- A read after a write: the byte written there, every other byte as it was. -/
theorem Memory.read_writeFrom {a : Nat} {b : Byte} (x : Nat) :
    ∀ {m : List Host.Cell} {lo : Nat}, Memory.wfFrom lo m = true →
      Memory.read (Memory.write m a b) x = if x = a then b else Memory.read m x
  | [], lo, _ => by
    unfold Memory.write
    exact Memory.read_push (lo := a + 1) rfl (by omega) x
  | (y, c) :: m, lo, hm => by
    have hm' := hm
    simp only [Memory.wfFrom, Bool.and_eq_true, decide_eq_true_eq] at hm'
    obtain ⟨⟨⟨hy, hy64⟩, hc⟩, hr⟩ := hm'
    unfold Memory.write
    split
    · next h =>
      refine Memory.read_push (lo := y) ?_ h x
      simp only [Memory.wfFrom, Bool.and_eq_true, decide_eq_true_eq]
      exact ⟨⟨⟨le_rfl, hy64⟩, hc⟩, hr⟩
    · split
      · next h =>
        subst h
        rw [Memory.read_push hr (by omega)]
        by_cases hx : x = a
        · simp [hx]
        · simp [Memory.read, Ne.symm hx]
      · next h1 h2 =>
        by_cases hx : x = y
        · subst hx; simp [Memory.read, Ne.symm h2]
        · simp [Memory.read, Ne.symm hx, Memory.read_writeFrom x hr]

theorem Memory.read_write {m : List Host.Cell} {a : Nat} {b : Byte} (hm : Memory.wf m = true) (x : Nat) :
    Memory.read (Memory.write m a b) x = if x = a then b else Memory.read m x :=
  Memory.read_writeFrom x hm

theorem Memory.writeBytes_wf : ∀ {bs : List Byte} {m : List Host.Cell} {a : Word},
    Memory.wf m = true → Memory.wf (Memory.writeBytes m a bs) = true
  | [], _, _, h => h
  | b :: bs, m, a, h => by
    unfold Memory.writeBytes
    exact Memory.writeBytes_wf (bs := bs) (Memory.write_wf a.isLt h)

theorem byteAddr_succ (a : Word) (j : Nat) : byteAddr a (j + 1) = byteAddr (a + 1) j := by
  unfold byteAddr
  rw [Nat.add_comm j 1, BitVec.ofNat_add, ← BitVec.add_assoc]; rfl

/-- Bytes outside the written range read as before. -/
theorem Memory.read_writeBytes_other (x : Nat) : ∀ {bs : List Byte} {m : List Host.Cell} {a : Word},
    Memory.wf m = true → (∀ j, j < bs.length → byteAddr a j ≠ x) →
      Memory.read (Memory.writeBytes m a bs) x = Memory.read m x
  | [], _, _, _, _ => rfl
  | b :: bs, m, a, hm, h => by
    have h0 : byteAddr a 0 ≠ x := h 0 (by simp)
    have hx : x ≠ a.toNat := by simpa [byteAddr] using h0.symm
    rw [Memory.writeBytes, Memory.read_writeBytes_other x (Memory.write_wf a.isLt hm), Memory.read_write hm, if_neg hx]
    intro j hj
    rw [← byteAddr_succ]
    exact h (j + 1) (by simpa using hj)

/-- Byte `j` of what was written reads back at address `a + j`. -/
theorem Memory.read_writeBytes : ∀ {bs : List Byte} {m : List Host.Cell} {a : Word} {j : Nat} (hj : j < bs.length),
    bs.length ≤ 2 ^ 64 → Memory.wf m = true → Memory.read (Memory.writeBytes m a bs) (byteAddr a j) = bs[j]
  | b :: bs, m, a, 0, _, hl, hm => by
    rw [Memory.writeBytes, Memory.read_writeBytes_other _ (Memory.write_wf a.isLt hm), Memory.read_write hm]
    · simp [byteAddr]
    · intro k hk
      rw [← byteAddr_succ]
      simp only [byteAddr, BitVec.toNat_add, BitVec.toNat_ofNat]
      have := a.isLt
      simp only [List.length_cons] at hl
      omega
  | b :: bs, m, a, j + 1, hj, hl, hm => by
    simp only [List.length_cons] at hl hj
    rw [Memory.writeBytes, byteAddr_succ,
      Memory.read_writeBytes (bs := bs) (j := j) (by omega) (by omega) (Memory.write_wf a.isLt hm)]
    simp

/-- The value of `n` bytes is below 256^n. -/
theorem leValue_lt : ∀ bs : List Byte, leValue bs < 256 ^ bs.length
  | [] => by simp [leValue]
  | b :: bs => by
    have h1 := leValue_lt bs
    have h2 := b.isLt
    simp only [leValue, List.length_cons, pow_succ]
    omega

/-- Byte `j` of a little-endian value is the byte at offset `j` (20_memory R50). -/
theorem leValue_byte : ∀ (bs : List Byte) (j : Nat), leValue bs / 256 ^ j % 256 = (bs[j]?.getD 0).toNat
  | [], j => by simp [leValue]
  | b :: bs, 0 => by
    have := b.isLt
    simp [leValue]; omega
  | b :: bs, j + 1 => by
    have := b.isLt
    have e : leValue (b :: bs) / 256 ^ (j + 1) = leValue bs / 256 ^ j := by
      rw [pow_succ', ← Nat.div_div_eq_div_mul]
      congr 1
      simp only [leValue]; omega
    rw [e, leValue_byte bs j]
    simp

end Sys2Proof.Machine
end

