-- ==== Sys2Proof/Laws/State.lean ====
section
/-!
SUPPORT. One lemma per field of State per update, so that no later proof unfolds a record update.
-/

namespace Sys2Proof.Machine

variable (s : State) (i j : Fin 8) (m : Mask) (n : Nat)

@[simp] theorem State.writeK_v : (s.writeK i m).v = s.v := rfl
@[simp] theorem State.writeK_g : (s.writeK i m).g = s.g := rfl
@[simp] theorem State.writeK_rip : (s.writeK i m).rip = s.rip := rfl
@[simp] theorem State.writeK_eflags : (s.writeK i m).eflags = s.eflags := rfl
@[simp] theorem State.writeK_mxcsr : (s.writeK i m).mxcsr = s.mxcsr := rfl
@[simp] theorem State.writeK_mem : (s.writeK i m).mem = s.mem := rfl
@[simp] theorem State.writeK_cfg : (s.writeK i m).cfg = s.cfg := rfl
@[simp] theorem State.writeK_draws : (s.writeK i m).draws = s.draws := rfl

@[simp] theorem State.advance_k : (s.advance n).k = s.k := rfl
@[simp] theorem State.advance_v : (s.advance n).v = s.v := rfl
@[simp] theorem State.advance_g : (s.advance n).g = s.g := rfl
@[simp] theorem State.advance_rip : (s.advance n).rip = s.rip + BitVec.ofNat 64 n := rfl
@[simp] theorem State.advance_eflags : (s.advance n).eflags = s.eflags := rfl
@[simp] theorem State.advance_mxcsr : (s.advance n).mxcsr = s.mxcsr := rfl
@[simp] theorem State.advance_mem : (s.advance n).mem = s.mem := rfl
@[simp] theorem State.advance_cfg : (s.advance n).cfg = s.cfg := rfl
@[simp] theorem State.advance_draws : (s.advance n).draws = s.draws := rfl

@[simp] theorem State.drew_k : (s.drew n).k = s.k := rfl
@[simp] theorem State.drew_v : (s.drew n).v = s.v := rfl
@[simp] theorem State.drew_g : (s.drew n).g = s.g := rfl
@[simp] theorem State.drew_rip : (s.drew n).rip = s.rip := rfl
@[simp] theorem State.drew_eflags : (s.drew n).eflags = s.eflags := rfl
@[simp] theorem State.drew_mxcsr : (s.drew n).mxcsr = s.mxcsr := rfl
@[simp] theorem State.drew_mem : (s.drew n).mem = s.mem := rfl
@[simp] theorem State.drew_cfg : (s.drew n).cfg = s.cfg := rfl
@[simp] theorem State.drew_draws : (s.drew n).draws = s.draws + n := rfl

/-! The accessors over the updates. -/

@[simp] theorem State.readK_writeK_same : (s.writeK i m).readK i = m := by
  simp [State.readK, State.writeK]

theorem State.readK_writeK_other (h : j ≠ i) : (s.writeK i m).readK j = s.readK j := by
  have : i.val ≠ j.val := fun e => h (Fin.ext e.symm)
  simp [State.readK, State.writeK, this]

@[simp] theorem State.readV_writeK (r : Fin 32) : (s.writeK i m).readV r = s.readV r := rfl
@[simp] theorem State.readG_writeK (r : Fin 16) : (s.writeK i m).readG r = s.readG r := rfl
@[simp] theorem State.readK_advance : (s.advance n).readK i = s.readK i := rfl
@[simp] theorem State.readV_advance (r : Fin 32) : (s.advance n).readV r = s.readV r := rfl
@[simp] theorem State.readG_advance (r : Fin 16) : (s.advance n).readG r = s.readG r := rfl
@[simp] theorem State.readK_drew : (s.drew n).readK i = s.readK i := rfl
@[simp] theorem State.readV_drew (r : Fin 32) : (s.drew n).readV r = s.readV r := rfl
@[simp] theorem State.readG_drew (r : Fin 16) : (s.drew n).readG r = s.readG r := rfl

/-! A completed form: the fields of `retire`. -/

variable (vl : VL) (o : Operands)

@[simp] theorem retire_readK_dest : (retire vl o m s).readK o.kd = m := by simp [retire]

theorem retire_readK_other (h : i ≠ o.kd) : (retire vl o m s).readK i = s.readK i := by
  simp [retire, State.readK_writeK_other _ _ _ _ h]

@[simp] theorem retire_v : (retire vl o m s).v = s.v := rfl
@[simp] theorem retire_g : (retire vl o m s).g = s.g := rfl
@[simp] theorem retire_rip : (retire vl o m s).rip = s.rip + BitVec.ofNat 64 o.length := rfl
@[simp] theorem retire_eflags : (retire vl o m s).eflags = s.eflags := rfl
@[simp] theorem retire_mxcsr : (retire vl o m s).mxcsr = s.mxcsr := rfl
@[simp] theorem retire_mem : (retire vl o m s).mem = s.mem := rfl
@[simp] theorem retire_cfg : (retire vl o m s).cfg = s.cfg := rfl
@[simp] theorem retire_draws : (retire vl o m s).draws = s.draws + bytesRead vl o.src2 := rfl

end Sys2Proof.Machine
end

