-- ==== Sys2Proof/Laws/Exec.lean ====
section
/-!
SUPPORT. What an instruction and a step can do, said once: when a form answers a next state, and which; how a step comes to
run an instruction.
-/

namespace Sys2Proof.Machine

theorem Stop.outcome_ne_next (st : Stop) (t : State) : st.outcome ≠ .next t := by
  cases st <;> simp [Stop.outcome]

/-- The meanings of all six forms are instances of one step. -/
theorem exec_eq_runForm (i : Instr) (s : State) : exec i s = runForm i.form.signed i.form.vl i.operands s := by
  cases i <;> rfl

/-- MemAdmit stops a step exactly where it does not answer ok. -/
theorem admitStop_eq_none (a : AdmitAnswer) (s : State) : admitStop a s = none ↔ a = .ok := by
  cases a <;> simp [admitStop]

/-- A form answers a next state exactly when no check stops it, and then it is `retire`. -/
theorem runForm_next (signed : Bool) (vl : VL) (o : Operands) (s t : State) :
    runForm signed vl o s = .next t ↔
      formStop vl o.imm8 s = none ∧ src2Admit vl o s = .ok ∧ t = retire vl o (resultMask signed vl o s) s := by
  unfold runForm
  cases h : formStop vl o.imm8 s with
  | some st => simp [Stop.outcome_ne_next]
  | none =>
    cases h2 : admitStop (src2Admit vl o s) s with
    | some st =>
      have : src2Admit vl o s ≠ .ok := fun e => by simp [(admitStop_eq_none _ s).2 e] at h2
      simp [Stop.outcome_ne_next, this]
    | none => simp [(admitStop_eq_none _ s).1 h2, eq_comm]

theorem exec_next (i : Instr) (s t : State) :
    exec i s = .next t ↔ formStop i.form.vl i.operands.imm8 s = none ∧ src2Admit i.form.vl i.operands s = .ok ∧
      t = retire i.form.vl i.operands (resultMask i.form.signed i.form.vl i.operands s) s := by
  rw [exec_eq_runForm]; exact runForm_next ..

/-- When the checks of a form let it go on. -/
theorem formStop_eq_none (vl : VL) (imm : BitVec 8) (s : State) :
    formStop vl imm s = none ↔ s.cfg.mode = .bits64 ∧ s.cfg.osAvx512Enabled = true ∧ cpuidOk vl s.cfg = true ∧
      s.cfg.cr0Ts = false ∧ immAccepted imm s.cfg = true := by
  unfold formStop
  split_ifs <;> simp_all

/-- When a fetch of `n` bytes goes through. -/
theorem fetchStop_eq_none (n : Nat) (s : State) :
    fetchStop n s = none ↔
      memAdmit s.cfg.admits ⟨s.rip, n, .fetch, .other, 0⟩ = .ok ∧ s.rip.toNat + n < 2 ^ 64 := by
  unfold fetchStop
  cases h : admitStop (memAdmit s.cfg.admits ⟨s.rip, n, .fetch, .other, 0⟩) s with
  | some st =>
    have : memAdmit s.cfg.admits ⟨s.rip, n, .fetch, .other, 0⟩ ≠ .ok := fun e => by
      simp [(admitStop_eq_none _ s).2 e] at h
    simp [this]
  | none =>
    have := (admitStop_eq_none _ s).1 h
    simp only [this, true_and]
    split <;> simp <;> omega

/-- A fetch hands out an instruction exactly when the decoder reads it from the bytes at `rip` and its bytes are admitted. -/
theorem fetch_ok (s : State) (i : Instr) :
    fetch s = .ok i ↔ s.cfg.mode = .bits64 ∧
      ∃ n, decode (window s) = .instr i n ∧ memAdmit s.cfg.admits ⟨s.rip, n, .fetch, .other, 0⟩ = .ok ∧
        s.rip.toNat + n < 2 ^ 64 := by
  unfold fetch
  split
  · next h => simp [h]
  · next h =>
    have hm : s.cfg.mode = .bits64 := by simpa using h
    cases hf : fetchStop (decode (window s)).consumed s with
    | some st =>
      simp only [reduceCtorEq, false_iff]
      rintro ⟨-, n, hd, ha, hn⟩
      rw [hd] at hf
      simp [Decoded.consumed, (fetchStop_eq_none n s).2 ⟨ha, hn⟩] at hf
    | none =>
      cases hd : decode (window s) with
      | instr j n =>
        rw [hd] at hf
        have := (fetchStop_eq_none n s).1 hf
        simp only [verdict, hm, Except.ok.injEq, Decoded.instr.injEq, true_and]
        constructor
        · rintro rfl; exact ⟨n, ⟨rfl, rfl⟩, this⟩
        · rintro ⟨_, ⟨rfl, -⟩, -⟩; rfl
      | ud c n => simp [verdict]
      | refuse r n => simp [verdict]

/-- A step that answers a next state has run an instruction fetched at `rip`. -/
theorem step_next (s t : State) (h : step s = .next t) :
    ∃ i n, s.cfg.mode = .bits64 ∧ decode (window s) = .instr i n ∧
      memAdmit s.cfg.admits ⟨s.rip, n, .fetch, .other, 0⟩ = .ok ∧ s.rip.toNat + n < 2 ^ 64 ∧ exec i s = .next t := by
  unfold step at h
  cases hf : fetch s with
  | error st => simp [hf, Stop.outcome_ne_next] at h
  | ok i =>
    obtain ⟨hm, n, hd, ha, hn⟩ := (fetch_ok s i).1 hf
    exact ⟨i, n, hm, hd, ha, hn, by simpa [hf] using h⟩

/-- Every exception reports the address of the instruction (60_exceptions R185, R186). -/
theorem takeException_rip (e s f) (h : (takeException e s).outcome = .fault f) : f.rip = s.rip := by
  cases e <;> simp [takeException, Stop.outcome] at h <;> subst h <;> rfl

theorem admitStop_rip (a s st f) (h : admitStop a s = some st) (h' : st.outcome = .fault f) : f.rip = s.rip := by
  cases a <;> simp [admitStop] at h <;> subst h
  iterate 3 exact takeException_rip _ _ _ h'
  all_goals simp [Stop.outcome] at h'

/-- The conditions of `canComplete` are the absence of a stop. -/
theorem canComplete_iff (vl : VL) (o : Operands) (s : State) :
    canComplete vl o s = true ↔ formStop vl o.imm8 s = none ∧ src2Admit vl o s = .ok := by
  rw [formStop_eq_none]
  simp only [canComplete, formReady, Bool.and_eq_true, beq_iff_eq, Bool.not_eq_true']
  tauto

/-- The bytes a launch places are the bytes fetched. -/
theorem window_placeText (s : State) (bs : List Byte) (hb : bs.length = 12) (hm : Memory.wf s.mem = true) :
    window (placeText s bs) = bs := by
  have hmem : (placeText s bs).mem = Memory.writeBytes s.mem s.rip bs := by unfold placeText; simp only; split <;> rfl
  have hrip : (placeText s bs).rip = s.rip := by unfold placeText; simp only; split <;> rfl
  unfold window
  rw [hmem, hrip]
  apply List.ext_getElem
  · simp [maxLength, hb]
  · intro j h1 h2
    simp only [List.getElem_map, List.getElem_range]
    exact Memory.read_writeBytes h2 (by omega) hm

/-- A launch that places text admits its fetch. -/
theorem placeText_admits (s : State) (bs : List Byte) (n : Nat) (h1 : 1 ≤ n) (h2 : n ≤ 12) :
    memAdmit (placeText s bs).cfg.admits ⟨(placeText s bs).rip, n, .fetch, .other, 0⟩ = .ok := by
  unfold placeText
  simp only
  split
  · next h =>
    unfold textAdmitted at h
    have := List.all_eq_true.1 h n (List.mem_range.2 (by unfold maxLength; omega))
    simpa using this
  · have : Span.applies (.touching s.rip.toNat maxLength) ⟨s.rip, n, .fetch, .other, 0⟩ = true := by
      simp only [Span.applies, List.any_eq_true, List.mem_range]
      refine ⟨0, by omega, ?_⟩
      simp [byteAddr, maxLength]
    simp [memAdmit, AdmitRule.applies, this]

end Sys2Proof.Machine
end

