-- ==== Sys2Proof/Laws/Flags.lean ====
section
/-!
SUPPORT. The bits that the mask operations of `CmpW` leave.
-/

namespace Sys2Proof.Machine

theorem setBit_getLsbD (d : Mask) (j : Nat) (b : Bool) (i : Nat) (hj : j < Config.maxKl) :
    (setBit d j b).getLsbD i = if i = j then b else d.getLsbD i := by
  unfold setBit
  by_cases hi : i = j
  · subst hi
    cases b <;> simp [hj]
  · cases b <;> simp [BitVec.getLsbD_twoPow, hi, Ne.symm hi]
    intro h; exact BitVec.lt_of_getLsbD h

/-- The loop writes the bits below `kl` and no other. -/
theorem laneLoop_getLsbD (f : Nat → Bool) (d : Mask) (i : Nat) :
    ∀ kl, kl ≤ Config.maxKl → (laneLoop f kl d).getLsbD i = if i < kl then f i else d.getLsbD i
  | 0, _ => by simp [laneLoop]
  | kl + 1, h => by
    rw [laneLoop, setBit_getLsbD _ _ _ _ (by omega), laneLoop_getLsbD f d i kl (by omega)]
    by_cases hi : i = kl
    · subst hi; simp
    · have : (i < kl + 1) ↔ i < kl := by omega
      simp [hi, this]

theorem clearAbove_getLsbD (kl : Nat) (d : Mask) (i : Nat) :
    (clearAbove kl d).getLsbD i = (decide (i < kl) && d.getLsbD i) := by
  unfold clearAbove
  by_cases hi : i < Config.maxKl
  · rw [BitVec.getLsbD_and, BitVec.getLsbD_ofNat, Nat.testBit_two_pow_sub_one]
    simp only [hi, decide_true, Bool.true_and, Bool.and_comm]
  · simp [BitVec.getLsbD_of_ge _ _ (not_lt.mp hi)]

/-- Bit 16j + b of a vector is bit b of element j (10_state R24). -/
theorem element_getLsbD {n : Nat} (x : BitVec n) (j b : Nat) :
    (element x j).getLsbD b = (decide (b < 16) && x.getLsbD (16 * j + b)) := by
  simp [element, BitVec.getLsbD_extractLsb']

/-- An element below the width of a narrower view is the element of the whole register (10_state R25, R26). -/
theorem element_setWidth {n : Nat} (x : BitVec n) (w j : Nat) (h : 16 * j + 16 ≤ w) :
    element (x.setWidth w) j = element x j := by
  apply BitVec.eq_of_getLsbD_eq
  intro b hb
  rw [element_getLsbD, element_getLsbD, BitVec.getLsbD_setWidth]
  have : 16 * j + b < w := by omega
  simp [this]

end Sys2Proof.Machine
end

