-- ==== Sys2Proof/Laws/Operands.lean ====
section
/-!
SUPPORT. Views and elements, the admission of a read, and the bytes of a read.
-/

namespace Sys2Proof.Machine

theorem lanes_le (vl : VL) : vl.lanes ≤ Config.maxKl := by cases vl <;> decide
theorem lanes_le32 (vl : VL) : vl.lanes ≤ 32 := by cases vl <;> decide
theorem bits_lanes (vl : VL) : vl.bits = 16 * vl.lanes := by cases vl <;> decide

/-- An element of a view is the element of the register (10_state R25, R26). -/
theorem element_view (vl : VL) (x : Vec) (j : Nat) (h : j < vl.lanes) : element (view vl x) j = element x j := by
  apply element_setWidth; have := bits_lanes vl; omega

theorem bytes_lanes (vl : VL) : vl.bytes = 2 * vl.lanes := by cases vl <;> decide

/-- Writemasks that agree below KL ask for the same admissions, and read the same bytes. -/
theorem admitRead_congr (vl ea seg wm wm' s) (h : ∀ j, j < vl.lanes → enabled wm j = enabled wm' j) :
    admitRead vl ea seg wm s = admitRead vl ea seg wm' s := by
  unfold admitRead
  rw [List.filter_congr (fun j hj => by rw [h j (List.mem_range.1 hj)])]

theorem dataBytes_congr (vl ea wm wm' s) (h : ∀ j, j < vl.lanes → enabled wm j = enabled wm' j) :
    dataBytes vl ea wm s = dataBytes vl ea wm' s := by
  unfold dataBytes
  apply List.map_congr_left
  intro b hb
  have := bytes_lanes vl
  rw [h (b/2) (by have := List.mem_range.1 hb; omega)]

/-- Element j of a little-endian value is its bytes 2j and 2j + 1 (20_memory R50, R51). -/
theorem element_ofNat_leValue (n : Nat) (bs : List Byte) (j : Nat) (h : 16 * j + 16 ≤ n) :
    element (BitVec.ofNat n (leValue bs)) j = (bs[2*j+1]?.getD 0) ++ (bs[2*j]?.getD 0) := by
  apply BitVec.eq_of_toNat_eq
  have h0 := leValue_byte bs (2*j)
  have h1 := leValue_byte bs (2*j+1)
  have e : leValue bs / 2 ^ (16*j) = leValue bs / 256 ^ (2*j) := by
    rw [show (256:Nat) = 2^8 from rfl, ← pow_mul]; congr 2; omega
  have e' : leValue bs / 256 ^ (2*j+1) = leValue bs / 256 ^ (2*j) / 256 := by rw [pow_succ, Nat.div_div_eq_div_mul]
  have hlt := (bs[2*j]?.getD (0 : Byte)).isLt
  simp only [element, BitVec.extractLsb'_toNat, BitVec.toNat_ofNat, BitVec.toNat_append, Nat.shiftRight_eq_div_pow]
  rw [← Nat.shiftLeft_add_eq_or_of_lt (by omega), Nat.shiftLeft_eq, ← h0, ← h1, e']
  have : leValue bs % 2 ^ n / 2 ^ (16 * j) % 2 ^ 16 = leValue bs / 2 ^ (16 * j) % 2 ^ 16 := by
    rw [show n = 16 * j + (n - 16 * j) by omega, pow_add, Nat.mod_mul_right_div_self, Nat.mod_mod_of_dvd]
    exact Nat.pow_dvd_pow 2 (by omega)
  rw [this, e]
  omega

/-- Several requests are admitted together exactly when each is. -/
theorem firstReported_ok (as : List AdmitAnswer) : firstReported as = .ok ↔ ∀ a ∈ as, a = .ok := by
  unfold firstReported
  constructor
  · intro h a ha
    split at h
    · next x hx => have := List.find?_some hx; subst h; simp [AdmitAnswer.isSegmentFault] at this
    split at h
    · next x hx => have := List.find?_some hx; subst h; simp [AdmitAnswer.isPageFault] at this
    next h1 h2 =>
    cases h3 : as.find? (fun a => a != .ok) with
    | none => have := List.find?_eq_none.1 h3 a ha; simpa using this
    | some x => have := List.find?_some h3; rw [h3] at h; simp only [Option.getD_some] at h; subst h; simp at this
  · intro h
    have f1 : as.find? AdmitAnswer.isSegmentFault = none := List.find?_eq_none.2 fun a ha => by rw [h a ha]; decide
    have f2 : as.find? AdmitAnswer.isPageFault = none := List.find?_eq_none.2 fun a ha => by rw [h a ha]; decide
    have f3 : as.find? (fun a => a != .ok) = none := List.find?_eq_none.2 fun a ha => by rw [h a ha]; decide
    rw [f1, f2, f3]; rfl

end Sys2Proof.Machine
end

