-- ==== Sys2Proof/Laws/PerInstr.lean ====
section
/-!
SUPPORT. Statements made per instruction: the bytes of an instruction are as many as its length says, 7 to 12 of them
(30_encoding R81).
-/

namespace Sys2Proof.Laws

theorem disp_encode_length (d : Disp) : d.encode.length = d.size := by cases d <;> rfl

/-- Opcode, ModRM, SIB, displacement, immediate: the bytes of a form number L. -/
theorem form_encode_length (f : Form) (o : Operands) : (f.encode o).length = o.length := by
  obtain ⟨kd, kw, s1, src2, imm⟩ := o
  cases src2 with
  | reg r => rfl
  | mem m => cases m <;> simp [Form.encode, Src2.encode, Operands.length, Src2.extraBytes, disp_encode_length, le32] <;> omega

theorem extraBytes_le (x : Src2) : x.extraBytes ≤ 5 := by
  cases x with
  | reg r => simp [Src2.extraBytes]
  | mem m => cases m with
    | base b d => cases d <;> simp [Src2.extraBytes, Disp.size]
    | ripRel d => simp [Src2.extraBytes]
    | sib b ix sc d => cases d <;> simp [Src2.extraBytes, Disp.size]
    | sibNoBase ix sc d => simp [Src2.extraBytes]

theorem length_range (o : Operands) : 7 ≤ o.length ∧ o.length ≤ 12 := by
  have := extraBytes_le o.src2
  unfold Operands.length; omega

def EncodeLength.Statement (i : Instr) : Prop := (encode i).length = i.length ∧ 7 ≤ i.length ∧ i.length ≤ 12

theorem EncodeLength.vpcmpwXmm (o : Operands) : EncodeLength.Statement (.vpcmpwXmm o) :=
  ⟨form_encode_length _ o, length_range o⟩

theorem EncodeLength.vpcmpwYmm (o : Operands) : EncodeLength.Statement (.vpcmpwYmm o) :=
  ⟨form_encode_length _ o, length_range o⟩

theorem EncodeLength.vpcmpwZmm (o : Operands) : EncodeLength.Statement (.vpcmpwZmm o) :=
  ⟨form_encode_length _ o, length_range o⟩

theorem EncodeLength.vpcmpuwXmm (o : Operands) : EncodeLength.Statement (.vpcmpuwXmm o) :=
  ⟨form_encode_length _ o, length_range o⟩

theorem EncodeLength.vpcmpuwYmm (o : Operands) : EncodeLength.Statement (.vpcmpuwYmm o) :=
  ⟨form_encode_length _ o, length_range o⟩

theorem EncodeLength.vpcmpuwZmm (o : Operands) : EncodeLength.Statement (.vpcmpuwZmm o) :=
  ⟨form_encode_length _ o, length_range o⟩

end Sys2Proof.Laws
end

