-- ==== Sys2Proof/Laws/Program.lean ====
section
/-!
SUPPORT. Programs: sizes, the text in memory, the admission of its fetch, and a run read from its end.
-/

namespace Sys2Proof.Machine

theorem encode_length (i : Instr) : (encode i).length = i.length := Laws.form_encode_length _ _

theorem codeBytes_length (code : List Instr) : (codeBytes code).length = codeSize code := by
  induction code with
  | nil => rfl
  | cons i code ih => simp [codeBytes, codeSize, encode_length]

theorem codeSize_append (a b : List Instr) : codeSize (a ++ b) = codeSize a + codeSize b := by simp [codeSize]

/-- The size of a program around its n-th instruction. -/
theorem codeSize_split {code : List Instr} {n : Nat} {i : Instr} (h : code[n]? = some i) :
    codeSize code = codeSize (code.take n) + i.length + codeSize (code.drop (n + 1)) := by
  obtain ⟨hn, rfl⟩ := List.getElem?_eq_some_iff.1 h
  conv_lhs => rw [← List.take_append_drop n code, List.drop_eq_getElem_cons hn]
  rw [codeSize_append, Nat.add_assoc]; congr 1

theorem codeSize_take_succ {code : List Instr} {n : Nat} {i : Instr} (h : code[n]? = some i) :
    codeSize (code.take (n + 1)) = codeSize (code.take n) + i.length := by
  obtain ⟨hn, rfl⟩ := List.getElem?_eq_some_iff.1 h
  rw [List.take_succ_eq_append_getElem hn, codeSize_append]; simp [codeSize]

/-- The bytes of the n-th instruction stand after those of the instructions before it. -/
theorem codeBytes_getElem {code : List Instr} {n : Nat} {i : Instr} (h : code[n]? = some i) {j : Nat} (hj : j < (encode i).length) :
    (codeBytes code)[codeSize (code.take n) + j]? = some (encode i)[j] := by
  obtain ⟨hn, rfl⟩ := List.getElem?_eq_some_iff.1 h
  conv_lhs => rw [← List.take_append_drop n code, List.drop_eq_getElem_cons hn]
  have hl := codeBytes_length (code.take n)
  simp only [codeBytes, List.flatMap_append, List.flatMap_cons] at hl ⊢
  rw [List.take_append_of_le_length (by simp; omega), List.take_take, min_self,
    List.getElem?_append_right (by omega), List.getElem?_append_left (by omega)]
  simp [hl]

/-- The text of a launched program reads back. -/
theorem launch_read {p : Program} {s : State} (hm : Memory.wf s.mem = true) (hT : p.size ≤ 2 ^ 64) {n : Nat} {i : Instr}
    (h : p.code[n]? = some i) {j : Nat} (hj : j < (encode i).length) :
    Memory.read (p.launch s).mem (byteAddr p.base (codeSize (p.code.take n) + j)) = (encode i)[j] := by
  have hk := codeBytes_getElem h hj
  obtain ⟨hlt, he⟩ := List.getElem?_eq_some_iff.1 hk
  rw [← he]
  exact Memory.read_writeBytes hlt (by rw [codeBytes_length]; exact hT) hm

/-- MemAdmit admits a fetch that lies within the text. -/
theorem textRules_admits (p : Program) (s : State) (a : Word) (n : Nat) (seg : Segment) (hn : 0 < n) (hlo : p.base.toNat ≤ a.toNat)
    (hhi : a.toNat + n ≤ p.base.toNat + p.size) (hT : p.base.toNat + p.size < 2 ^ 64) :
    memAdmit (p.launch s).cfg.admits ⟨a, n, .fetch, seg, 0⟩ = .ok := by
  have hb : ∀ b, b < n → byteAddr a b = a.toNat + b := by
    intro b hbn; simp only [byteAddr, BitVec.toNat_add, BitVec.toNat_ofNat]; omega
  have h1 : Span.applies (.touching (p.base.toNat + p.size) (2 ^ 64 - (p.base.toNat + p.size))) ⟨a, n, .fetch, seg, 0⟩ = false := by
    simp only [Span.applies, List.any_eq_false, List.mem_range]
    intro b hbn; rw [hb b hbn]; simp; omega
  have h2 : Span.applies (.touching 0 p.base.toNat) ⟨a, n, .fetch, seg, 0⟩ = false := by
    simp only [Span.applies, List.any_eq_false, List.mem_range]
    intro b hbn; rw [hb b hbn]; simp; omega
  have h3 : Span.applies (.touching p.base.toNat p.size) ⟨a, n, .fetch, seg, 0⟩ = true := by
    simp only [Span.applies, List.any_eq_true, List.mem_range]
    exact ⟨0, hn, by rw [hb 0 hn]; simp; omega⟩
  simp only [Program.launch, Program.textRules, memAdmit, List.cons_append, List.find?_cons, AdmitRule.applies, h1, h2, h3]
  simp

/-- A fetch at `base + T` is outside the declared text, whatever its length. -/
theorem textRules_end (p : Program) (s : State) (a : Word) (n : Nat) (seg : Segment) (hn : 0 < n)
    (ha : a.toNat = p.base.toNat + p.size) : memAdmit (p.launch s).cfg.admits ⟨a, n, .fetch, seg, 0⟩ = .outsideText := by
  have := a.isLt
  have h1 : Span.applies (.touching (p.base.toNat + p.size) (2 ^ 64 - (p.base.toNat + p.size))) ⟨a, n, .fetch, seg, 0⟩ = true := by
    simp only [Span.applies, List.any_eq_true, List.mem_range]
    refine ⟨0, hn, ?_⟩
    have : byteAddr a 0 = a.toNat := by simp [byteAddr]
    rw [this]; simp; omega
  simp only [Program.launch, Program.textRules, memAdmit, List.cons_append, List.find?_cons, AdmitRule.applies, h1]
  simp

/-- The decoder reads at least one byte to answer anything of a byte string that has one. -/
theorem consumed_pos (s : State) : 0 < (decode (window s)).consumed := by
  obtain ⟨b, r, h⟩ : ∃ b r, window s = b :: r := by
    cases h : window s with
    | nil => simp [window, maxLength] at h
    | cons b r => exact ⟨b, r, rfl⟩
  rw [h]
  have hbuild : ∀ (h : Head) src xu imm n, (h.build src xu imm n).consumed = n := by
    intro h src xu imm n; unfold Head.build; repeat' split
    all_goals rfl
  have hfin : ∀ (h : Head) src xu n bs, n ≤ (h.finish src xu n bs).consumed := by
    intro h src xu n bs; cases bs
    · exact le_rfl
    · rw [Head.finish, hbuild]; omega
  have hd32 : ∀ (h : Head) mk xu n bs, n ≤ (h.disp32 mk xu n bs).consumed := by
    intro h mk xu n bs; unfold Head.disp32; split
    · exact le_trans (by omega) (hfin ..)
    · exact le_rfl
  have hdm : ∀ (h : Head) mk xu n bs, n ≤ (h.dispByMod mk xu n bs).consumed := by
    intro h mk xu n bs; unfold Head.dispByMod; split
    · exact hfin ..
    split
    · split
      · exact le_trans (by omega) (hfin ..)
      · exact le_rfl
    · exact hd32 ..
  have hafter : ∀ (h : Head) bs, 6 ≤ (h.afterModrm bs).consumed := by
    intro h bs; unfold Head.afterModrm; split
    · exact hfin ..
    split
    · unfold Head.sibForms; split
      · exact le_rfl
      · simp only; split
        · exact le_trans (by omega) (hd32 ..)
        · exact le_trans (by omega) (hdm ..)
    split
    · exact hd32 ..
    · exact hdm ..
  unfold decode
  split
  · next h => cases h
  · next h =>
    split
    · unfold decodeEvex
      repeat' split
      all_goals first | exact Nat.lt_of_lt_of_le (by decide) (hafter ..) | simp [Decoded.consumed]
    · unfold decodeOther
      repeat' split
      all_goals simp [Decoded.consumed]

/-- One step more of a run, read from its end. -/
theorem run_succ (p : Program) : ∀ (n : Nat) (s : State), p.run (n + 1) s =
    match p.run n s with
    | .next t => if p.ended t then .next t else step t
    | .fault f => .fault f
    | .refused r => .refused r
  | 0, s => by
    simp only [Program.run]
    split
    · rfl
    · cases step s <;> rfl
  | n + 1, s => by
    rw [Program.run]
    cases he : p.ended s with
    | true => simp [Program.run, he]
    | false =>
      cases hs : step s with
      | next t => simp only [Bool.false_eq_true, if_false]; rw [run_succ p n t]; simp [Program.run, he, hs]
      | fault f => simp [Program.run, he, hs]
      | refused r => simp [Program.run, he, hs]

end Sys2Proof.Machine
end

