-- ==== Sys2Proof/Machine/Assembly.lean ====
section
/-!
DEFINITION. The assembler's names for the six forms: syntax, pseudo-operations, intrinsics (30_encoding R115, R117, R118). No
step uses them.
-/

namespace Sys2Proof.Machine

def Form.mnemonic (f : Form) : String := if f.signed then "VPCMPW" else "VPCMPUW"

/-- xmm, ymm, zmm (R115). -/
def VL.letter : VL → String
  | .v128 => "x"
  | .v256 => "y"
  | .v512 => "z"

def vectorName (vl : VL) (r : Fin 32) : String := VL.letter vl ++ "mm" ++ toString r.val

/-- The numbers of 10_state R27. -/
def gprName (r : Fin 16) : String :=
  (["rax", "rcx", "rdx", "rbx", "rsp", "rbp", "rsi", "rdi"][r.val]?).getD ("r" ++ toString r.val)

/-- `+disp` or `-disp`, nothing for 0. -/
def dispText (d : Int) : String :=
  if d = 0 then "" else if d < 0 then "-" ++ toString d.natAbs else "+" ++ toString d.natAbs

/-- The displacement in bytes, after the scaling of R93. -/
def dispInt (vl : VL) : Disp → Int
  | .none => 0
  | .d8 d => d.toInt * vl.bytes
  | .d32 d => d.toInt

def indexText (ix : Option (Fin 16)) (scale : Fin 4) : List String :=
  match ix with
  | none => []
  | some i => [gprName i ++ "*" ++ toString (2 ^ scale.val)]

/-- `[base + index*scale + disp]` (R115). -/
def memText (vl : VL) : MemOp → String
  | .base b d => "[" ++ gprName b ++ dispText (dispInt vl d) ++ "]"
  | .ripRel d => "[rip" ++ dispText d.toInt ++ "]"
  | .sib b ix sc d => "[" ++ "+".intercalate (gprName b :: indexText ix sc) ++ dispText (dispInt vl d) ++ "]"
  | .sibNoBase none _ d => "[" ++ toString d.toInt ++ "]"
  | .sibNoBase (some i) sc d => "[" ++ "+".intercalate (indexText (some i) sc) ++ dispText d.toInt ++ "]"

def src2Text (vl : VL) : Src2 → String
  | .reg r => vectorName vl r
  | .mem m => memText vl m

/-- The writemask in braces, left out for "no writemask" (R115). -/
def maskText (kw : Fin 8) : String :=
  if kw = 0 then "" else String.ofList [' ', Char.ofNat 123] ++ "k" ++ toString kw.val ++ String.ofList [Char.ofNat 125]

/-- The line of assembler for an instruction (R115), destination first. -/
def asmText (i : Instr) : String :=
  let f := i.form
  let o := i.operands
  Form.mnemonic f ++ " k" ++ toString o.kd.val ++ maskText o.kw ++ ", " ++ vectorName f.vl o.s1 ++ ", "
    ++ src2Text f.vl o.src2 ++ ", " ++ toString o.imm8.toNat

/-- The letters of a pseudo-operation or intrinsic for a predicate; none for FALSE and TRUE (R117). -/
def Pred.suffix : Pred → Option String
  | .eq => some "EQ"
  | .lt => some "LT"
  | .le => some "LE"
  | .never => none
  | .neq => some "NEQ"
  | .nlt => some "NLT"
  | .nle => some "NLE"
  | .always => none

/-- The pseudo-op mnemonic of a predicate (R117). Two of the names are also those of other instructions, out of scope. -/
def pseudoOp (signed : Bool) (p : Pred) : Option String :=
  p.suffix.map fun x => "VPCMP" ++ x ++ (if signed then "W" else "UW")

/-- The six named comparisons of the intrinsics and their predicates (R118). -/
def namedCompares : List (String × Pred) :=
  [("eq", .eq), ("ge", .nlt), ("gt", .nle), ("le", .le), ("lt", .lt), ("neq", .neq)]

/-- The name of an intrinsic (R118): `cmp` is empty for the form with an `int cmp` argument. -/
def intrinsicName (f : Form) (masked : Bool) (cmp : String) : String :=
  (match f.vl with
    | .v128 => "_mm"
    | .v256 => "_mm256"
    | .v512 => "_mm512")
  ++ (if masked then "_mask" else "") ++ "_cmp" ++ cmp ++ (if f.signed then "_epi16" else "_epu16") ++ "_mask"

end Sys2Proof.Machine
end

