-- ==== Sys2Proof/Tests/Slice0.lean ====
section
/-!
SUPPORT. Tests: expected results are those of spec/95_test_vectors (named in each comment) or worked by hand from the rules; then, for
each statement with hypotheses, a state and operands that meet them.
-/

namespace Sys2Proof.Tests

-- One test at a time: in parallel they hold a thread's stack each.
set_option Elab.async false

open Sys2Proof.Machine

/-! ### Data of 95_test_vectors section 3 -/

/-- A vector from its elements, element 0 first. -/
def vec (ws : List Nat) : Vec := BitVec.ofNat 512 (ws.foldr (fun w acc => w % 2 ^ 16 + 2 ^ 16 * acc) 0)

def wordsA8 : List Nat := [0x0001, 0xFFFF, 0x8000, 0x7FFF, 0x0000, 0x1234, 0xFFFE, 0x8001]
def wordsB8 : List Nat := [0x0001, 0x0001, 0x7FFF, 0x8000, 0xFFFF, 0x1233, 0xFFFF, 0x8001]
def wordsA16 : List Nat := wordsA8 ++ [0x0002, 0x8000, 0x00FF, 0xFF00, 0x7FFF, 0x0000, 0xABCD, 0x5555]
def wordsB16 : List Nat := wordsB8 ++ [0x0003, 0x8000, 0xFF00, 0x00FF, 0x7FFE, 0x8000, 0xABCD, 0xAAAA]
def wordsZ32 : List Nat := (List.range 32).map fun j => 0x0800 * j
def wordsC32 : List Nat := List.replicate 32 0x8000
def wordsW32 : List Nat := (List.range 32).map fun j => 0x1111 * j

/-- Elements as bytes of memory, low byte first. -/
def bytesOf (ws : List Nat) : List Byte := ws.flatMap fun w => [BitVec.ofNat 8 w, BitVec.ofNat 8 (w / 256)]

/-- Reset with some registers set. -/
def regs (s : State) (vs : List (Nat × List Nat)) (gs : List (Nat × Word)) (rip : Word) : State :=
  { s with
    v := vs.foldl (fun v x => v.setIfInBounds x.1 (vec x.2)) s.v
    g := gs.foldl (fun g x => g.setIfInBounds x.1 x.2) s.g
    rip := rip }

/-- `v[2]`, `v[3]` and `k[2]` given, `k[1]` all ones, as in sections 3.3 to 3.6. -/
def pair (a b : List Nat) (wm : Mask) : State :=
  ((regs State.reset [(2, a), (3, b)] [] 0x1000).writeK 2 wm).writeK 1 (-1)

/-- Data and program text in memory. -/
def withBytes (s : State) (a : Word) (bs : List Byte) : State := { s with mem := Memory.writeBytes s.mem a bs }

/-- An opmask register of the next state. -/
def kAfter (i : Fin 8) (r : Host.Outcome State Fault Refusal) : Option Nat :=
  match r with
  | .next t => some (t.readK i).toNat
  | _ => none

/-- An opmask register and `rip` of the next state. -/
def kRip (i : Fin 8) (r : Host.Outcome State Fault Refusal) : Option (Nat × Nat) :=
  match r with
  | .next t => some ((t.readK i).toNat, t.rip.toNat)
  | _ => none

def faultOf (r : Host.Outcome State Fault Refusal) : Option Fault :=
  match r with
  | .fault f => some f
  | _ => none

def refusalOf (r : Host.Outcome State Fault Refusal) : Option Refusal :=
  match r with
  | .refused f => some f
  | _ => none

/-- One column of a table of section 3: all eight predicates of `... k1 {kw}, v2, v3, p`. -/
def column (f : Operands → Instr) (kw : Fin 8) (s : State) : List (Option Nat) :=
  (List.range 8).map fun p => kAfter 1 (exec (f ⟨1, kw, 2, .reg 3, BitVec.ofNat 8 p⟩) s)

/-! ### Well-formedness: one ill-formed term for each check -/

theorem test_base_4_needs_sib : (Instr.vpcmpwXmm ⟨1, 0, 2, .mem (.base 4 (.d8 0)), 0⟩).wellFormed = false := by decide
theorem test_base_12_needs_sib : (Instr.vpcmpuwZmm ⟨1, 0, 2, .mem (.base 12 .none), 0⟩).wellFormed = false := by decide
theorem test_base_5_needs_disp : (Instr.vpcmpwYmm ⟨1, 0, 2, .mem (.base 5 .none), 0⟩).wellFormed = false := by decide
theorem test_sib_base_13_needs_disp :
    (Instr.vpcmpuwXmm ⟨1, 0, 2, .mem (.sib 13 none 0 .none), 0⟩).wellFormed = false := by decide
theorem test_index_4_is_none : (Instr.vpcmpwZmm ⟨1, 0, 2, .mem (.sib 0 (some 4) 0 .none), 0⟩).wellFormed = false := by decide
theorem test_index_4_is_none_without_base :
    (Instr.vpcmpuwYmm ⟨1, 0, 2, .mem (.sibNoBase (some 4) 0 0), 0⟩).wellFormed = false := by decide

/-! ### Decoding: the words of 95_test_vectors section 2.1 with the operands of 2.2 -/

theorem test_decode_E1 : decode [0x62, 0xF3, 0xED, 0x48, 0x3F, 0xCB, 0x03] = .instr (.vpcmpwZmm ⟨1, 0, 2, .reg 3, 3⟩) 7 := by decide
theorem test_decode_E2 : decode [0x62, 0xF3, 0xED, 0x4A, 0x3F, 0xCB, 0x01] = .instr (.vpcmpwZmm ⟨1, 2, 2, .reg 3, 1⟩) 7 := by decide
theorem test_decode_E3 : decode [0x62, 0xF3, 0xED, 0x48, 0x3E, 0xCB, 0x01] = .instr (.vpcmpuwZmm ⟨1, 0, 2, .reg 3, 1⟩) 7 := by decide
theorem test_decode_E4 : decode [0x62, 0xF3, 0xED, 0x08, 0x3F, 0xCA, 0x00] = .instr (.vpcmpwXmm ⟨1, 0, 2, .reg 2, 0⟩) 7 := by decide
theorem test_decode_E5 : decode [0x62, 0xF3, 0xE5, 0x28, 0x3F, 0xC2, 0x01] = .instr (.vpcmpwYmm ⟨0, 0, 3, .reg 2, 1⟩) 7 := by decide
theorem test_decode_E6 : decode [0x62, 0x93, 0xB5, 0x08, 0x3F, 0xC6, 0x02] = .instr (.vpcmpwXmm ⟨0, 0, 9, .reg 30, 2⟩) 7 := by decide
theorem test_decode_E7 : decode [0x62, 0xB3, 0x85, 0x23, 0x3E, 0xE0, 0x07] = .instr (.vpcmpuwYmm ⟨4, 3, 31, .reg 16, 7⟩) 7 := by decide
theorem test_decode_E9 : decode [0x62, 0xF3, 0xDD, 0x4A, 0x3E, 0xD2, 0x06] = .instr (.vpcmpuwZmm ⟨2, 2, 4, .reg 2, 6⟩) 7 := by decide
theorem test_decode_E10 : decode [0x62, 0xF3, 0xF5, 0x47, 0x3E, 0x68, 0x01, 0x06] =
    .instr (.vpcmpuwZmm ⟨5, 7, 17, .mem (.base 0 (.d8 1)), 6⟩) 8 := by decide
theorem test_decode_E11 : decode [0x62, 0xF3, 0xF5, 0x48, 0x3F, 0x88, 0x7F, 0x00, 0x00, 0x00, 0x00] =
    .instr (.vpcmpwZmm ⟨1, 0, 1, .mem (.base 0 (.d32 0x7F)), 0⟩) 11 := by decide
theorem test_decode_E14 : decode [0x62, 0xD3, 0xF5, 0x4D, 0x3F, 0x65, 0x00, 0x01] =
    .instr (.vpcmpwZmm ⟨4, 5, 1, .mem (.base 13 (.d8 0)), 1⟩) 8 := by decide
theorem test_decode_E15 : decode [0x62, 0xD3, 0xF5, 0x48, 0x3F, 0x4C, 0x24, 0x01, 0x01] =
    .instr (.vpcmpwZmm ⟨1, 0, 1, .mem (.sib 12 none 0 (.d8 1)), 1⟩) 9 := by decide
theorem test_decode_E16 : decode [0x62, 0xF3, 0xFD, 0x29, 0x3F, 0x3C, 0x24, 0x03] =
    .instr (.vpcmpwYmm ⟨7, 1, 0, .mem (.sib 4 none 0 .none), 3⟩) 8 := by decide
theorem test_decode_E17 : decode [0x62, 0xF3, 0xDD, 0x29, 0x3E, 0x5C, 0x8B, 0x01, 0x05] =
    .instr (.vpcmpuwYmm ⟨3, 1, 4, .mem (.sib 3 (some 1) 2 (.d8 1)), 5⟩) 9 := by decide
theorem test_decode_E18 : decode [0x62, 0xB3, 0xFD, 0x48, 0x3F, 0x74, 0xF5, 0xFE, 0x01] =
    .instr (.vpcmpwZmm ⟨6, 0, 0, .mem (.sib 5 (some 14) 3 (.d8 0xFE)), 1⟩) 9 := by decide
theorem test_decode_E19 : decode [0x62, 0xF3, 0xD5, 0x28, 0x3F, 0x0C, 0x00, 0x01] =
    .instr (.vpcmpwYmm ⟨1, 0, 5, .mem (.sib 0 (some 0) 0 .none), 1⟩) 8 := by decide
theorem test_decode_E20 : decode [0x62, 0xF3, 0xFD, 0x08, 0x3E, 0x0C, 0x25, 0x00, 0x10, 0x00, 0x00, 0x02] =
    .instr (.vpcmpuwXmm ⟨1, 0, 0, .mem (.sibNoBase none 0 0x1000), 2⟩) 12 := by decide
theorem test_decode_E21 : decode [0x62, 0xF3, 0xF5, 0x08, 0x3F, 0x0C, 0x4D, 0x10, 0x00, 0x00, 0x00, 0x01] =
    .instr (.vpcmpwXmm ⟨1, 0, 1, .mem (.sibNoBase (some 1) 1 0x10), 1⟩) 12 := by decide
theorem test_decode_E22 : decode [0x62, 0xF3, 0xF5, 0x08, 0x3F, 0x15, 0x10, 0x00, 0x00, 0x00, 0x04] =
    .instr (.vpcmpwXmm ⟨2, 0, 1, .mem (.ripRel 0x10), 4⟩) 11 := by decide

/-- The encoder gives the assemblers' bytes back (E7, E18, E20, E22). -/
theorem test_encode_E : encode (.vpcmpuwYmm ⟨4, 3, 31, .reg 16, 7⟩) = [0x62, 0xB3, 0x85, 0x23, 0x3E, 0xE0, 0x07] ∧
    encode (.vpcmpwZmm ⟨6, 0, 0, .mem (.sib 5 (some 14) 3 (.d8 0xFE)), 1⟩) =
      [0x62, 0xB3, 0xFD, 0x48, 0x3F, 0x74, 0xF5, 0xFE, 0x01] ∧
    encode (.vpcmpuwXmm ⟨1, 0, 0, .mem (.sibNoBase none 0 0x1000), 2⟩) =
      [0x62, 0xF3, 0xFD, 0x08, 0x3E, 0x0C, 0x25, 0x00, 0x10, 0x00, 0x00, 0x02] ∧
    encode (.vpcmpwXmm ⟨2, 0, 1, .mem (.ripRel 0x10), 4⟩) =
      [0x62, 0xF3, 0xF5, 0x08, 0x3F, 0x15, 0x10, 0x00, 0x00, 0x00, 0x04] := by decide

/-! Edge encodings of section 2.3 -/

theorem test_edge_X1 : decode [0x62, 0xF3, 0xED, 0xC8, 0x3F, 0xCB, 0x03] = .ud .evexZ 7 := by decide
theorem test_edge_X3 : decode [0x62, 0xF3, 0xF5, 0x58, 0x3F, 0x08, 0x03] = .ud .evexB 7 := by decide
theorem test_edge_X4 : decode [0x62, 0xF3, 0xED, 0x68, 0x3F, 0xCB, 0x03] = .ud .evexLL 7 := by decide
theorem test_edge_X5 : decode [0x62, 0x73, 0xED, 0x48, 0x3F, 0xCB, 0x03] = .ud .destination 7 := by decide
theorem test_edge_X6 : decode [0x62, 0xE3, 0xED, 0x48, 0x3F, 0xCB, 0x03] = .ud .destination 7 := by decide
theorem test_edge_X7 : decode [0x62, 0xF3, 0x6D, 0x48, 0x3F, 0xCB, 0x03] = .refuse .otherW 3 := by decide
theorem test_edge_X10 : decode [0x62, 0x93, 0xED, 0x48, 0x3F, 0xCB, 0x03] = .instr (.vpcmpwZmm ⟨1, 0, 2, .reg 27, 3⟩) 7 := by decide
theorem test_edge_X11 : decode [0x62, 0xF3, 0xED, 0x40, 0x3F, 0xCB, 0x03] = .instr (.vpcmpwZmm ⟨1, 0, 18, .reg 3, 3⟩) 7 := by decide
theorem test_edge_X12 : decode [0x62, 0xFB, 0xED, 0x48, 0x3F, 0xCB, 0x03] = .refuse .fixedBits 2 := by decide
theorem test_edge_X13 : decode [0x62, 0xF3, 0xE9, 0x48, 0x3F, 0xCB, 0x03] = .refuse .fixedBits 3 := by decide
theorem test_edge_X14 : decode [0x62, 0xB3, 0xF5, 0x48, 0x3F, 0x08, 0x00] = .refuse .xWithoutSib 7 := by decide
theorem test_edge_X15 : decode [0x62, 0xF3, 0xED, 0x48, 0x3D, 0xCB, 0x03] = .refuse .otherOpcode 5 := by decide
theorem test_edge_X16 : decode [0x62, 0xF2, 0xED, 0x48, 0x3F, 0xCB, 0x03] = .refuse .otherMap 2 := by decide
theorem test_edge_X17 : decode [0x62, 0xF3, 0xEE, 0x48, 0x3F, 0xCB, 0x03] = .refuse .otherPp 3 := by decide
/-- X18, in the second of the two verdicts it allows (log 14). -/
theorem test_edge_X18 : decode [0xF0, 0x62, 0xF3, 0xED, 0x48, 0x3F, 0xCB, 0x03] = .ud .legacyPrefix 2 := by decide

/-! ### Two tests an instruction -/

/-- Section 3.3, VPCMPW, no writemask and writemask A5H. -/
theorem test_vpcmpwXmm_table :
    column .vpcmpwXmm 0 (pair wordsA8 wordsB8 0xFFFFFFFFFFFFFFA5) = [0x81, 0x46, 0xC7, 0, 0x7E, 0xB9, 0x38, 0xFF].map some ∧
    column .vpcmpwXmm 2 (pair wordsA8 wordsB8 0xFFFFFFFFFFFFFFA5) = [0x81, 0x04, 0x85, 0, 0x24, 0xA1, 0x20, 0xA5].map some := by
  decide +kernel

/-- Program 2 step 2 of section 4, from its bytes: RIP-relative, an odd data address. -/
theorem test_vpcmpwXmm_rip_relative :
    kRip 2 (step (withBytes (withBytes (regs State.reset [(1, wordsA8)] [] 0x401008) 0x401023
      (bytesOf wordsB8)) 0x401008 [0x62, 0xF3, 0xF5, 0x08, 0x3F, 0x15, 0x10, 0x00, 0x00, 0x00, 0x04])) =
    some (0x7E, 0x401013) := by decide +kernel

/-- Section 3.5, VPCMPW, no writemask and writemask 0FF0H. -/
theorem test_vpcmpwYmm_table :
    column .vpcmpwYmm 0 (pair wordsA16 wordsB16 0x0FF0) =
      [0x4281, 0x0946, 0x4BC7, 0, 0xBD7E, 0xF6B9, 0xB438, 0xFFFF].map some ∧
    column .vpcmpwYmm 2 (pair wordsA16 wordsB16 0x0FF0) =
      [0x0280, 0x0940, 0x0BC0, 0, 0x0D70, 0x06B0, 0x0430, 0x0FF0].map some := by decide +kernel

/-- Program 1 step 5: destination k0, upper bits cleared. -/
theorem test_vpcmpwYmm_k0 :
    kRip 0 (step (withBytes ((pair wordsZ32 wordsC32 0).writeK 0 (-1)) 0x1000 [0x62, 0xF3, 0xE5, 0x28, 0x3F, 0xC2, 0x01])) =
    some (0xFFFF, 0x1007) := by decide +kernel

/-- Section 3.6, VPCMPW, no writemask and writemask FFFF0000H. -/
theorem test_vpcmpwZmm_table :
    column .vpcmpwZmm 0 (pair wordsZ32 wordsC32 0xFFFF0000) =
      [0x10000, 0, 0x10000, 0, 0xFFFEFFFF, 0xFFFFFFFF, 0xFFFEFFFF, 0xFFFFFFFF].map some ∧
    column .vpcmpwZmm 2 (pair wordsZ32 wordsC32 0xFFFF0000) =
      [0x10000, 0, 0x10000, 0, 0xFFFE0000, 0xFFFF0000, 0xFFFE0000, 0xFFFF0000].map some := by decide +kernel

/-- The start of program 3 step 2, with or without suppression: reads that touch 7000H or above are #PF. -/
def program3 (suppress : Bool) : State :=
  let cfg : Launch :=
    { defaultLaunch with
      suppressMasked := suppress
      admits := ⟨[⟨.touching 0x7000 0x100, .read, none, .pf ⟨4, 0x7000⟩⟩], .ok, .ok⟩ }
  (withBytes (withBytes (regs { State.reset with cfg := cfg } [(1, wordsZ32)] [(13, 0x6FE0)] 0x2007)
    0x6FE0 (bytesOf (wordsW32.take 16))) 0x2007 [0x62, 0xD3, 0xF5, 0x4D, 0x3F, 0x65, 0x00, 0x01]).writeK 5 0xFFFF

/-- Program 3 step 2 (F12, F13): #PF by default, the masked-off part neither asked nor read with suppression. -/
theorem test_vpcmpwZmm_masked_fault :
    faultOf (step (program3 false)) = some (.pf 0x2007 ⟨4, 0x7000⟩) ∧
    kRip 4 (step (program3 true)) = some (0xFE, 0x200F) := by decide +kernel

/-- Section 3.3, VPCMPUW, no writemask and writemask A5H. -/
theorem test_vpcmpuwXmm_table :
    column .vpcmpuwXmm 0 (pair wordsA8 wordsB8 0xFFFFFFFFFFFFFFA5) = [0x81, 0x58, 0xD9, 0, 0x7E, 0xA7, 0x26, 0xFF].map some ∧
    column .vpcmpuwXmm 2 (pair wordsA8 wordsB8 0xFFFFFFFFFFFFFFA5) = [0x81, 0, 0x81, 0, 0x24, 0xA5, 0x24, 0xA5].map some := by
  decide +kernel

/-- E20 (M7) on B8 at 1000H against zeros: 0 <= every word, so LE is true in all eight lanes. -/
theorem test_vpcmpuwXmm_absolute :
    kRip 1 (step (withBytes (withBytes (regs State.reset [] [] 0x3000) 0x1000 (bytesOf wordsB8)) 0x3000
      [0x62, 0xF3, 0xFD, 0x08, 0x3E, 0x0C, 0x25, 0x00, 0x10, 0x00, 0x00, 0x02])) = some (0xFF, 0x300C) := by decide +kernel

/-- Section 3.5, VPCMPUW, no writemask and writemask 0FF0H. -/
theorem test_vpcmpuwYmm_table :
    column .vpcmpuwYmm 0 (pair wordsA16 wordsB16 0x0FF0) =
      [0x4281, 0xA558, 0xE7D9, 0, 0xBD7E, 0x5AA7, 0x1826, 0xFFFF].map some ∧
    column .vpcmpuwYmm 2 (pair wordsA16 wordsB16 0x0FF0) =
      [0x0280, 0x0550, 0x07D0, 0, 0x0D70, 0x0AA0, 0x0820, 0x0FF0].map some := by decide +kernel

/-- Program 2 step 3: base, scaled index, scaled displacement. -/
theorem test_vpcmpuwYmm_sib :
    kRip 3 (step (withBytes (withBytes ((regs State.reset [(4, wordsA16)] [(3, 0x600000), (1, 0x10)] 0x401013).writeK 1 0xFF0) 0x600060 (bytesOf wordsB16)) 0x401013
      [0x62, 0xF3, 0xDD, 0x29, 0x3E, 0x5C, 0x8B, 0x01, 0x05])) = some (0xAA0, 0x40101C) := by decide +kernel

/-- Section 3.6, VPCMPUW, no writemask and writemask 00010001H. -/
theorem test_vpcmpuwZmm_table :
    column .vpcmpuwZmm 0 (pair wordsZ32 wordsC32 0x00010001) =
      [0x10000, 0xFFFF, 0x1FFFF, 0, 0xFFFEFFFF, 0xFFFF0000, 0xFFFE0000, 0xFFFFFFFF].map some ∧
    column .vpcmpuwZmm 2 (pair wordsZ32 wordsC32 0x00010001) =
      [0x10000, 1, 0x10001, 0, 1, 0x10000, 0, 0x10001].map some := by decide +kernel

/-- Program 2 step 1: a displacement scaled by 64, a writemask, SRC1 above register 15. -/
theorem test_vpcmpuwZmm_disp8 :
    kRip 5 (step (withBytes (withBytes ((regs State.reset [(17, wordsZ32)] [(0, 0x500000)] 0x401000).writeK 7 0x0F0F0F0F) 0x500040 (bytesOf wordsW32)) 0x401000
      [0x62, 0xF3, 0xF5, 0x47, 0x3E, 0x68, 0x01, 0x06])) = some (0x0F0F0000, 0x401008) := by decide +kernel

/-! ### Assembler names (30_encoding R115 to R118) -/

theorem test_asm_text : asmText (.vpcmpwZmm ⟨1, 0, 2, .reg 3, 3⟩) = "VPCMPW k1, zmm2, zmm3, 3" ∧
    asmText (.vpcmpuwYmm ⟨3, 1, 4, .mem (.sib 3 (some 1) 2 (.d8 1)), 5⟩) =
      "VPCMPUW k3 " ++ String.ofList [Char.ofNat 123] ++ "k1" ++ String.ofList [Char.ofNat 125] ++
        ", ymm4, [rbx+rcx*4+32], 5" := by decide +kernel

theorem test_asm_names : pseudoOp true .nle = some "VPCMPNLEW" ∧ pseudoOp false .lt = some "VPCMPLTUW" ∧ pseudoOp true .never = none ∧
    intrinsicName ⟨true, .v512⟩ true "" = "_mm512_mask_cmp_epi16_mask" ∧
    intrinsicName ⟨false, .v128⟩ false "lt" = "_mm_cmplt_epu16_mask" := by decide +kernel

/-! ### Witnesses: for each statement with hypotheses, a state and operands that meet them

Each is named after its statement. Boundary values where clauses meet. -/

/-- Does `exec` answer a next state. -/
def completes (i : Instr) (s : State) : Bool :=
  match exec i s with
  | .next _ => true
  | _ => false

theorem exec_of_completes {i : Instr} {s : State} (h : completes i s = true) : ∃ t, exec i s = .next t := by
  unfold completes at h
  split at h
  · next t ht => exact ⟨t, ht⟩
  · simp at h

/-- Does `step` answer a next state. -/
def steps (s : State) : Bool :=
  match step s with
  | .next _ => true
  | _ => false

theorem step_of_steps {s : State} (h : steps s = true) : ∃ t, step s = .next t := by
  unfold steps at h
  split at h
  · next t ht => exact ⟨t, ht⟩
  · simp at h

/-- A register form with writemask k2, a memory form with writemask k2, forms without writemask, on `demo`. -/
def regForm : Instr := .vpcmpwXmm ⟨1, 2, 2, .reg 3, 1⟩
def memForm : Instr := .vpcmpuwZmm ⟨1, 2, 2, .mem (.base 0 (.d8 1)), 6⟩
def plainForm : Instr := .vpcmpuwYmm ⟨1, 0, 2, .reg 2, 1⟩
def plainForm0 : Instr := .vpcmpwYmm ⟨0, 0, 2, .reg 3, 1⟩
def demo : State := pair wordsA16 wordsB16 0xFFFFFFFFFFFFFFA5

theorem test_completes_register_form : ∃ t, exec regForm demo = .next t := exec_of_completes (by decide +kernel)
theorem test_completes_memory_form : ∃ t, exec memForm demo = .next t := exec_of_completes (by decide +kernel)
theorem test_completes_plain_form : ∃ t, exec plainForm demo = .next t := exec_of_completes (by decide +kernel)
theorem test_completes_plain_form_k0 : ∃ t, exec plainForm0 demo = .next t := exec_of_completes (by decide +kernel)

theorem test_witness_DecodeOfEncodeReturnsInstr :
    (Instr.vpcmpwXmm ⟨7, 7, 31, .reg 31, 0xFF⟩).wellFormed = true ∧
    (Instr.vpcmpuwYmm ⟨0, 0, 0, .mem (.base 13 (.d8 0)), 0⟩).wellFormed = true ∧
    (Instr.vpcmpwZmm ⟨1, 2, 16, .mem (.sib 12 (some 12) 3 (.d32 0x80000000)), 8⟩).wellFormed = true ∧
    (Instr.vpcmpuwZmm ⟨1, 2, 15, .mem (.sibNoBase none 2 5), 8⟩).wellFormed = true := by decide

/-- For `DecodedBytesSelectOnlyTheirRow`, `DecodedInstrIsWellFormed` and `DecoderReadsNoFurther`: bytes that decode, shortest and
longest. -/
theorem test_witness_DecodedBytes :
    decode [0x62, 0xF3, 0xED, 0x4A, 0x3F, 0xCB, 0x01, 0xFF] = .instr (.vpcmpwZmm ⟨1, 2, 2, .reg 3, 1⟩) 7 ∧
    decode [0x62, 0xF3, 0xF5, 0x08, 0x3F, 0x0C, 0x4D, 0x10, 0x00, 0x00, 0x00, 0x01, 0xFF] =
      .instr (.vpcmpwXmm ⟨1, 0, 1, .mem (.sibNoBase (some 1) 1 0x10), 1⟩) 12 := by decide

theorem test_witness_RegisterFormOperandNumbers :
    EvexRow ⟨true, .v512⟩ 0x93 0xED 0x48 0x3F ∧ EvexRow ⟨false, .v256⟩ 0xB3 0x85 0x23 0x3E ∧
    EvexRow ⟨true, .v128⟩ 0xF3 0xFD 0x0F 0x3F ∧ (0xC0 : Byte).toNat / 64 = 3 ∧ (0xFF : Byte).toNat / 64 = 3 := by
  refine ⟨?_, ?_, ?_, by decide, by decide⟩ <;> constructor <;> decide

/-- Stored X = 1, and a ModRM byte for each clause, at the values where the clauses meet. -/
theorem test_witness_MemoryFormsWithoutSib :
    EvexRow ⟨true, .v512⟩ 0xD3 0xF5 0x4D 0x3F ∧ (0xD3 : Byte).toNat / 64 % 2 = 1 ∧
    (∀ m ∈ [(0x03 : Byte), 0x3F], m.toNat % 8 ≠ 4 ∧ m.toNat / 64 = 0 ∧ m.toNat % 8 ≠ 5) ∧
    (∀ m ∈ [(0x05 : Byte), 0x3D], m.toNat % 8 ≠ 4 ∧ m.toNat / 64 = 0 ∧ m.toNat % 8 = 5) ∧
    (∀ m ∈ [(0x40 : Byte), 0x45, 0x7F], m.toNat % 8 ≠ 4 ∧ m.toNat / 64 = 1) ∧
    (∀ m ∈ [(0x80 : Byte), 0x85, 0xBF], m.toNat % 8 ≠ 4 ∧ m.toNat / 64 = 2) := by
  refine ⟨by constructor <;> decide, by decide, by decide, by decide, by decide, by decide⟩

theorem test_witness_MemoryFormsWithSib :
    EvexRow ⟨false, .v256⟩ 0xF3 0xDD 0x29 0x3E ∧
    (∀ m ∈ [(0x04 : Byte), 0x3C], m.toNat % 8 = 4 ∧ m.toNat / 64 = 0) ∧
    (0x24 : Byte).toNat % 8 ≠ 5 ∧ (0x25 : Byte).toNat % 8 = 5 ∧
    (∀ m ∈ [(0x44 : Byte), 0x7C], m.toNat % 8 = 4 ∧ m.toNat / 64 = 1) ∧
    (∀ m ∈ [(0x84 : Byte), 0xBC], m.toNat % 8 = 4 ∧ m.toNat / 64 = 2) := by
  refine ⟨by constructor <;> decide, by decide, by decide, by decide, by decide, by decide⟩

/-- X1, X2, X4, X5, X6: one reserved bit each. -/
theorem test_witness_ReservedEvexBitsAreUd :
    (0xF3 : Byte).toNat % 16 = 3 ∧ (0x73 : Byte).toNat % 16 = 3 ∧ (0xE3 : Byte).toNat % 16 = 3 ∧
    (0xED : Byte).toNat / 128 = 1 ∧ (0xED : Byte).toNat % 8 = 5 ∧ 7 ≤ [(0xCB : Byte), 3, 0, 0, 0, 0, 0].length ∧
    (0xC8 : Byte).toNat / 128 = 1 ∧ (0x58 : Byte).toNat / 16 % 2 = 1 ∧ (0x68 : Byte).toNat / 32 % 4 = 3 ∧
    (0x73 : Byte).toNat / 128 = 0 ∧ (0xE3 : Byte).toNat / 16 % 2 = 0 := by decide

/-- X16, X7, X17, X15, X12, X13, a first byte of another instruction, and 66H before one. X12 and X13 are also for
`ViolatedFixedBitsAreRefused`. -/
theorem test_witness_ForeignEncodingsAreRefused :
    ((0xF2 : Byte).toNat % 16 ≠ 3 ∧ (0x6D : Byte).toNat / 128 = 0 ∧ (0xEE : Byte).toNat % 8 ≠ 5 ∧
      ((0x3D : Byte) ≠ 0x3E ∧ (0x3D : Byte) ≠ 0x3F)) ∧
    (0xFB : Byte).toNat / 8 % 2 = 1 ∧ ((0xF3 : Byte).toNat % 16 = 3 ∧ (0xE9 : Byte).toNat / 4 % 2 = 0) ∧
    ((0x63 : Byte) ≠ 0x62 ∧ isUdPrefix 0x63 = false) ∧ (isUdPrefix 0x66 = true ∧ (0x63 : Byte) ≠ 0x62) := by decide

theorem test_witness_UnusedBitsOfMemoryForms :
    EvexRow ⟨true, .v512⟩ 0xB3 0xF5 0x48 0x3F ∧ (0xB3 : Byte).toNat / 64 % 2 = 0 ∧ (0x08 : Byte).toNat / 64 ≠ 3 ∧
    (0x08 : Byte).toNat % 8 ≠ 4 ∧ 5 ≤ [(0 : Byte), 0, 0, 0, 0].length ∧
    dispAllowed 4 .none = true ∧ dispAllowed 5 (.d8 0) = true := by
  refine ⟨by constructor <;> decide, by decide, by decide, by decide, by decide, by decide, by decide⟩

theorem test_witness_LegacyPrefixVerdicts :
    ((0xF0 : Byte) ∈ [(0xF0 : Byte), 0x66, 0xF2, 0xF3] ∧ (0x40 : Byte).toNat / 16 = 4 ∧ (0x4F : Byte).toNat / 16 = 4) ∧
    (0x67 : Byte) ∈ [(0x26 : Byte), 0x2E, 0x36, 0x3E, 0x64, 0x65, 0x67] := by decide

/-- For `CompareMaskBitByBit`, `InPlaceCompareAgrees` and `CompareIdentities`: KL of every form, and the bound itself. -/
theorem test_witness_lanes_below_max_kl : ∀ kl ∈ [8, 16, 32, 64], kl ≤ Config.maxKl := by decide

theorem test_witness_SignednessOfElements : Pred.always ∈ [Pred.eq, .neq, .never, .always] ∧ Pred.nle ∈ [Pred.lt, .le, .nlt, .nle] := by
  decide

/-- Bit 1 of A5H is 0; 8 is the first bit at KL; the destination is not the writemask. -/
theorem test_witness_MaskingIsZeroing :
    (∃ t, exec regForm demo = .next t) ∧ enabled (writemask regForm.operands.kw demo) 1 = false ∧
    regForm.form.vl.lanes ≤ 8 ∧ regForm.operands.kd ≠ regForm.operands.kw :=
  ⟨test_completes_register_form, by decide +kernel, by decide, by decide⟩

/-- A mask that agrees with the writemask below KL = 8 and differs at bit 8. -/
theorem test_witness_WritemaskReadBelowLanesOnly :
    (∃ t, exec regForm demo = .next t) ∧ regForm.operands.kw ≠ 0 ∧
    (∀ j, j < regForm.form.vl.lanes → (0xA5 : Mask).getLsbD j = (demo.readK regForm.operands.kw).getLsbD j) ∧
    (0xA5 : Mask).getLsbD 8 ≠ (demo.readK regForm.operands.kw).getLsbD 8 :=
  ⟨test_completes_register_form, by decide, by decide +kernel, by decide +kernel⟩

theorem test_witness_SelectorZeroIsNoWritemask :
    ((∃ t, exec plainForm demo = .next t) ∧ plainForm.operands.kw = 0 ∧ plainForm.operands.kd ≠ 0) ∧
    ((∃ t, exec plainForm0 demo = .next t) ∧ plainForm0.operands.kd = 0) :=
  ⟨⟨test_completes_plain_form, rfl, by decide⟩, test_completes_plain_form_k0, rfl⟩

/-- K5: every register differs at bit 128, above the XMM view. -/
def flipped : Vector Vec 32 := demo.v.map fun x => x ^^^ BitVec.twoPow 512 128

theorem test_witness_UpperSourceBitsNotRead :
    (∃ t, exec regForm demo = .next t) ∧ flipped ≠ demo.v ∧
    ∀ r : Fin 32, (flipped[r]).setWidth regForm.form.vl.bits = (demo.readV r).setWidth regForm.form.vl.bits :=
  ⟨test_completes_register_form, by decide +kernel, by decide +kernel⟩

theorem test_witness_SameSourceCompare :
    (∃ t, exec plainForm demo = .next t) ∧ plainForm.operands.src2 = .reg plainForm.operands.s1 :=
  ⟨test_completes_plain_form, rfl⟩

theorem test_witness_EffectiveAddressOfEachForm : (Operands.mk 1 0 2 (.mem (.ripRel 0x10)) 4).src2 = .mem (.ripRel 0x10) := rfl

/-- `demo` under each ReadOracle, with and without suppression; the first and last element, the last one enabled. -/
def demoWith (src : ReadSource) (suppress : Bool) : State :=
  { demo.writeK 2 0x80000001 with cfg := { demo.cfg with readSource := src, suppressMasked := suppress } }

theorem test_witness_MemorySourceLayout :
    memForm.operands.src2 = .mem (.base 0 (.d8 1)) ∧ 0 < memForm.form.vl.lanes ∧ 31 < memForm.form.vl.lanes ∧
    (demoWith .launchMemory false).cfg.suppressMasked = false ∧ (demoWith .oracle false).cfg.suppressMasked = false ∧
    (∀ j ∈ [0, 31], enabled (writemask memForm.operands.kw (demoWith .oracle true)) j = true) ∧
    (demoWith .launchMemory true).cfg.readSource = .launchMemory ∧ (demoWith .oracle true).cfg.readSource = .oracle := by
  decide +kernel

/-- Both values of the parameter; under suppression no lane (all admitted) and one that is not admitted (program 3 with k5 whole). -/
theorem test_witness_AdmissionOfTheDataRead :
    memForm.operands.src2 = .mem (.base 0 (.d8 1)) ∧
    (program3 false).cfg.suppressMasked = false ∧ (program3 true).cfg.suppressMasked = true ∧
    src2Admit .v512 ⟨4, 5, 1, .mem (.base 13 (.d8 0)), 1⟩ (program3 true) = .ok ∧
    src2Admit .v512 ⟨4, 5, 1, .mem (.base 13 (.d8 0)), 1⟩ ((program3 true).writeK 5 0x10000) = .pf ⟨4, 0x7000⟩ := by
  decide +kernel

/-- Byte 2 of the operand (element 1, masked off by A5H) differs. -/
theorem test_witness_MaskedOffBytesNeverMatter :
    (∃ t, exec memForm demo = .next t) ∧ memForm.operands.src2 = .mem (.base 0 (.d8 1)) ∧
    (∀ b, b < memForm.form.vl.bytes → enabled (writemask memForm.operands.kw demo) (b / 2) = true →
      memByte { demo with mem := [(66, 1)] } (operandAddress memForm.form.vl memForm.operands (.base 0 (.d8 1)) demo) b =
        memByte demo (operandAddress memForm.form.vl memForm.operands (.base 0 (.d8 1)) demo) b) ∧
    memByte { demo with mem := [(66, 1)] } (operandAddress memForm.form.vl memForm.operands (.base 0 (.d8 1)) demo) 2 = 1 :=
  ⟨test_completes_memory_form, rfl, by decide +kernel, by decide +kernel⟩

theorem test_witness_RegisterFormsMakeNoAccess : (∃ t, exec regForm demo = .next t) ∧ regForm.operands.src2 = .reg 3 :=
  ⟨test_completes_register_form, rfl⟩

/-- `demo` with the chip's canonical rules and one general register set. -/
def canonicalDemo (bits : Nat) (r : Fin 16) (x : Word) (suppress : Bool) : State :=
  { (regs demo [] [(r.val, x)] 0x1000) with
    cfg := { demo.cfg with admits := ⟨canonicalRules bits, .ok, .ok⟩, suppressMasked := suppress } }

/-- The last canonical 64 bytes below the hole, one byte into it, one byte below its end, the first ones above it, the last ones of
the space, one over the top: 48 and 57 address bits. Then F10, F11 (30_encoding R92: RSP is the stack segment), and R67, with
suppression too: element 0 ends at the top, element 1 lies over it. -/
theorem test_witness_CanonicalCheckMirrorsTheChip :
    (∀ bits ∈ [48, 57], ∀ e ∈ [(2 ^ (bits - 1) - 64, true), (2 ^ (bits - 1) - 63, false), (2 ^ 64 - 2 ^ (bits - 1) - 1, false),
      (2 ^ 64 - 2 ^ (bits - 1), true), (2 ^ 64 - 64, true), (2 ^ 64 - 63, false)],
      decide (∀ k, k < 64 → e.1 + k < 2 ^ (bits - 1) ∨ (2 ^ 64 - 2 ^ (bits - 1) ≤ e.1 + k ∧ e.1 + k < 2 ^ 64)) = e.2) ∧
    faultOf (exec (.vpcmpuwZmm ⟨5, 0, 17, .mem (.base 0 (.d8 1)), 6⟩) (canonicalDemo 48 0 0x800000000000 false)) =
      some (.gp 0x1000) ∧
    faultOf (exec (.vpcmpwYmm ⟨7, 0, 0, .mem (.sib 4 none 0 .none), 3⟩) (canonicalDemo 48 4 0x800000000000 false)) =
      some (.ss 0x1000) ∧
    faultOf (exec (.vpcmpwXmm ⟨7, 0, 0, .mem (.base 5 (.d8 0)), 3⟩) (canonicalDemo 57 5 (-1) false)) = some (.ss 0x1000) ∧
    faultOf (exec (.vpcmpwXmm ⟨7, 2, 0, .mem (.base 0 .none), 3⟩) ((canonicalDemo 48 0 (-2) true).writeK 2 2)) =
      some (.gp 0x1000) ∧
    completes (.vpcmpwXmm ⟨7, 2, 0, .mem (.base 0 .none), 3⟩) ((canonicalDemo 48 0 (-2) true).writeK 2 1) = true := by
  decide +kernel

/-- A register and a memory form of each length. -/
theorem test_witness_VpcmpwCompletesWithItsEffect :
    canComplete .v128 regForm.operands demo = true ∧ canComplete .v256 regForm.operands demo = true ∧
    canComplete .v512 regForm.operands demo = true ∧ canComplete .v128 memForm.operands demo = true ∧
    canComplete .v256 memForm.operands demo = true ∧ canComplete .v512 memForm.operands demo = true := by decide +kernel

theorem test_witness_VpcmpuwCompletesWithItsEffect :
    canComplete .v128 plainForm.operands demo = true ∧ canComplete .v256 plainForm.operands demo = true ∧
    canComplete .v512 plainForm.operands demo = true ∧ canComplete .v128 memForm.operands (demoWith .oracle true) = true ∧
    canComplete .v256 memForm.operands (demoWith .oracle true) = true ∧
    canComplete .v512 memForm.operands (demoWith .oracle true) = true := by decide +kernel

/-- For `FormFrame` and `EflagsNeitherReadNorWritten`. -/
theorem test_witness_FormFrame : (∃ t, exec regForm demo = .next t) ∧ regForm.operands.src2 = .reg 3 ∧
    (∃ t, exec memForm demo = .next t) :=
  ⟨test_completes_register_form, rfl, test_completes_memory_form⟩

/-- `demo` under another configuration. -/
def configured (f : Launch → Launch) : State := { demo with cfg := f demo.cfg }

/-- F5 and F1. -/
theorem test_witness_UnavailableFormIsUd :
    let off := configured fun c => { c with osAvx512Enabled := false }
    let none' := configured fun c => { c with hasAvx512bw := false, hasAvx10_1 := false }
    off.cfg.mode = .bits64 ∧ off.cfg.osAvx512Enabled = false ∧ none'.cfg.mode = .bits64 ∧ none'.cfg.osAvx512Enabled = true ∧
    cpuidOk regForm.form.vl none'.cfg = false ∧ cpuidOk memForm.form.vl none'.cfg = false := by decide +kernel

/-- F6. -/
theorem test_witness_TaskSwitchedIsNm :
    let ts := configured fun c => { c with cr0Ts := true }
    ts.cfg.mode = .bits64 ∧ ts.cfg.osAvx512Enabled = true ∧ cpuidOk regForm.form.vl ts.cfg = true ∧ ts.cfg.cr0Ts = true := by
  decide +kernel

/-- X8's neighbourhood: 08H is the least reserved immediate. -/
theorem test_witness_ReservedImmediateBits :
    (formReady regForm.form.vl demo = true ∧ demo.cfg.imm8Policy = .refuse ∧ 8 ≤ (8 : BitVec 8).toNat ∧
      refusalOf (exec (.vpcmpwXmm ⟨1, 2, 2, .reg 3, 8⟩) demo) = some .reservedImm8 ∧
      completes (.vpcmpwXmm ⟨1, 2, 2, .reg 3, 7⟩) demo = true) ∧
    (configured fun c => { c with imm8Policy := .ignore }).cfg.imm8Policy = .ignore := by decide +kernel

/-- `demo` where MemAdmit gives one answer to every read. -/
def admitting (a : AdmitAnswer) : State := configured fun c => { c with admits := ⟨[], .ok, a⟩ }

theorem test_witness_DataReadStops :
    ∀ a ∈ [AdmitAnswer.ss, .gp, .pf ⟨4, 0⟩, .device], formReady memForm.form.vl (admitting a) = true ∧
      immAccepted memForm.operands.imm8 (admitting a).cfg = true ∧
      src2Admit memForm.form.vl memForm.operands (admitting a) = a := by decide +kernel

/-- E1 placed at the reset `rip`, and at the last place where its 7 bytes end below the top of the address space. -/
def placed : State := State.reset.withFetchWord 56 0x03CB3F48EDF362
def placedHigh : State := ({ State.reset with rip := 0xFFFFFFFFFFFFFFF8 } : State).withFetchWord 56 0x03CB3F48EDF362

theorem test_witness_StepRunsTheDecodedInstr :
    ∀ s ∈ [placed, placedHigh], s.cfg.mode = .bits64 ∧ decode (window s) = .instr (.vpcmpwZmm ⟨1, 0, 2, .reg 3, 3⟩) 7 ∧
      memAdmit s.cfg.admits ⟨s.rip, 7, .fetch, .other, 0⟩ = .ok ∧ s.rip.toNat + 7 < 2 ^ 64 := by decide +kernel

/-- `placed` where MemAdmit gives one answer to every fetch. -/
def fetching (a : AdmitAnswer) : State := { placed with cfg := { placed.cfg with admits := ⟨[], a, .ok⟩ } }

/-- Another mode; each answer to a fetch; X1 (#UD) and X7 (refused) admitted; E1 whose last byte is the last of the space. -/
theorem test_witness_OrderOfStops :
    (configured fun c => { c with mode := .bits32 }).cfg.mode ≠ .bits64 ∧
    (∀ a ∈ [AdmitAnswer.gp, .ss, .pf ⟨20, 0xFFFFFFF0⟩, .outsideText, .device],
      (fetching a).cfg.mode = .bits64 ∧
      memAdmit (fetching a).cfg.admits ⟨(fetching a).rip, (decode (window (fetching a))).consumed, .fetch, .other, 0⟩ = a) ∧
    decode (window (State.reset.withFetchWord 56 0x03CB3FC8EDF362)) = .ud .evexZ 7 ∧
    decode (window (State.reset.withFetchWord 56 0x03CB3F486DF362)) = .refuse .otherW 3 ∧
    faultOf (step (State.reset.withFetchWord 56 0x03CB3FC8EDF362)) = some (.ud 0xFFFFFFF0 .evexZ) ∧
    (let top := (regs State.reset [] [] 0xFFFFFFFFFFFFFFF9).withFetchWord 56 0x03CB3F48EDF362
     memAdmit top.cfg.admits ⟨top.rip, 7, .fetch, .other, 0⟩ = .ok ∧ 2 ^ 64 ≤ top.rip.toNat + (decode (window top)).consumed ∧
       refusalOf (step top) = some .ripWouldWrap) := by decide +kernel

theorem test_witness_FaultsReportTheFaultingRip :
    faultOf (step (program3 false)) = some (.pf 0x2007 ⟨4, 0x7000⟩) ∧ (program3 false).rip = 0x2007 := by decide +kernel

/-- For `StepFallsThrough` and `StepFrame`. -/
theorem test_witness_StepFallsThrough : (∃ t, step placed = .next t) ∧ (∃ t, step placedHigh = .next t) :=
  ⟨step_of_steps (by decide +kernel), step_of_steps (by decide +kernel)⟩

theorem test_witness_StepKeepsInv : Inv placed ∧ ∃ t, step placed = .next t :=
  ⟨⟨by decide +kernel, by decide +kernel⟩, step_of_steps (by decide +kernel)⟩

/-- From reset, and near the top of the address space. -/
theorem test_witness_PlacedInstructionRuns :
    Memory.wf State.reset.mem = true ∧ State.reset.cfg.mode = .bits64 ∧ State.reset.rip.toNat + 12 < 2 ^ 64 ∧
    (0xFFFFFFFFFFFFFFF3 : Word).toNat + 12 < 2 ^ 64 ∧
    decodeTableWord 56 0x03CB3F48EDF362 = some (.vpcmpwZmm ⟨1, 0, 2, .reg 3, 3⟩) := by decide +kernel

/-- E1 at the reset `rip`, and E22 (a memory form) at 401008H. -/
theorem test_witness_EncodedInstructionTakesEffect :
    let i : Instr := .vpcmpwZmm ⟨1, 0, 2, .reg 3, 3⟩
    let m : Instr := .vpcmpwXmm ⟨2, 0, 1, .mem (.ripRel 0x10), 4⟩
    let s : State := withBytes (regs State.reset [] [] 0x401008) 0x401008 (encode m)
    (i.wellFormed = true ∧ (∀ j (h : j < (encode i).length), Memory.read placed.mem (byteAddr placed.rip j) = (encode i)[j]) ∧
      memAdmit placed.cfg.admits ⟨placed.rip, i.length, .fetch, .other, 0⟩ = .ok ∧ placed.rip.toNat + i.length < 2 ^ 64 ∧
      canComplete i.form.vl i.operands placed = true) ∧
    (m.wellFormed = true ∧ (∀ j (h : j < (encode m).length), Memory.read s.mem (byteAddr s.rip j) = (encode m)[j]) ∧
      memAdmit s.cfg.admits ⟨s.rip, m.length, .fetch, .other, 0⟩ = .ok ∧ s.rip.toNat + m.length < 2 ^ 64 ∧
      canComplete m.form.vl m.operands s = true) := by decide +kernel

/-! ### Programs -/

/-- Program 1 of 95_test_vectors section 4, steps 1 and 2 (E3, E8), at 1000H. -/
def twoSteps : Program := ⟨0x1000, [.vpcmpuwZmm ⟨1, 0, 2, .reg 3, 1⟩, .vpcmpwZmm ⟨2, 1, 2, .reg 4, 2⟩]⟩

def twoStepsStart : State := regs State.reset [(2, wordsZ32), (3, wordsC32), (4, wordsW32)] [] 0

/-- `k[1]` and `k[2]` after the two steps, `rip = base + 14`, and the next step refused. -/
theorem test_program_1 :
    (twoSteps.finalState (twoSteps.launch twoStepsStart)).map (fun t => ((t.readK 1).toNat, (t.readK 2).toNat, t.rip.toNat,
      refusalOf (step t))) = some (0xFFFF, 0xFF, 0x100E, some .outsideText) := by decide +kernel

/-- `canComplete` of a register form looks at the configuration alone. -/
theorem canComplete_register {vl : VL} {o : Operands} {r : Fin 32} {s t : State} (hr : o.src2 = .reg r) (h : t.cfg = s.cfg)
    (hs : canComplete vl o s = true) : canComplete vl o t = true := by
  simpa [canComplete, formReady, src2Admit, hr, h] using hs

/-- For `StraightLineRunAdvances` and `StraightLineRunEnds`: all premises of both, every count of steps up to the end. -/
theorem test_witness_StraightLineRun :
    (∀ i ∈ twoSteps.code, i.wellFormed = true) ∧ Memory.wf twoStepsStart.mem = true ∧ twoStepsStart.cfg.mode = .bits64 ∧
    twoSteps.base.toNat + twoSteps.size < 2 ^ 64 ∧
    (∀ i ∈ twoSteps.code, ∀ t, SameElsewhere (twoSteps.launch twoStepsStart) t → canComplete i.form.vl i.operands t = true) ∧
    (∀ n ∈ [0, 1, 2], n ≤ twoSteps.code.length ∧
      (match twoSteps.run n (twoSteps.launch twoStepsStart) with | .next _ => true | _ => false) = true) := by
  refine ⟨by decide, by decide, rfl, by decide, ?_, by decide +kernel⟩
  intro i hi t ht
  simp only [twoSteps, List.mem_cons, List.not_mem_nil, or_false] at hi
  rcases hi with rfl | rfl
  · exact canComplete_register (s := twoSteps.launch twoStepsStart) rfl ht.config (by decide +kernel)
  · exact canComplete_register (s := twoSteps.launch twoStepsStart) rfl ht.config (by decide +kernel)

/-- F6 and program 4 with the default policy: a run that faults, and one that is refused. -/
theorem test_witness_StoppedRunHasNoFinalState :
    1 ≤ twoSteps.code.length ∧
    faultOf (twoSteps.run 1 (twoSteps.launch { twoStepsStart with cfg := { defaultLaunch with cr0Ts := true } })) = some (.nm 0x1000) ∧
    refusalOf ((Program.mk 0x3000 [.vpcmpwZmm ⟨1, 0, 2, .reg 3, 0x0E⟩]).run 1
      ((Program.mk 0x3000 [.vpcmpwZmm ⟨1, 0, 2, .reg 3, 0x0E⟩]).launch twoStepsStart)) = some .reservedImm8 := by decide +kernel

end Sys2Proof.Tests
end

/-! ## The scope: which processors have which form (00_scope) -/

section
namespace Sys2Proof.Machine

/-- A vector shorter than the whole register also needs AVX512VL, where AVX10.1 does not stand for both (R2). -/
theorem cpuidOk_iff_of_ne_v512 {vl : VL} (hvl : vl ≠ .v512) (c : Launch) :
    cpuidOk vl c = true ↔ (c.hasAvx512vl = true ∧ c.hasAvx512bw = true) ∨ c.hasAvx10_1 = true := by
  cases vl with
  | v128 | v256 => simp only [cpuidOk, Bool.or_eq_true, Bool.and_eq_true]
  | v512 => exact absurd rfl hvl

/-- A vector of the whole register does not ask for AVX512VL (R2). -/
theorem cpuidOk_v512_iff (c : Launch) :
    cpuidOk .v512 c = true ↔ c.hasAvx512bw = true ∨ c.hasAvx10_1 = true := by
  simp only [cpuidOk, Bool.or_eq_true]

/-- Settles O36: the 128- and 256-bit lengths share one expression, the 512-bit length has its own. -/
theorem cpuidExpressions : Obligations.CpuidExpressions := fun c =>
  ⟨cpuidOk_iff_of_ne_v512 (by decide) c, cpuidOk_iff_of_ne_v512 (by decide) c, cpuidOk_v512_iff c⟩

end Sys2Proof.Machine
end

/-! ## The state: what a form reads of it (10_state) -/

section
namespace Sys2Proof.Machine

/-! ### Two writes of opmask registers -/

/-- The later of two writes to one opmask register is the one that stays (R22). -/
@[simp] theorem State.writeK_writeK_same (s : State) (i : Fin 8) (m m' : Mask) :
    (s.writeK i m).writeK i m' = s.writeK i m' := by
  simp [State.writeK]

/-- Writes to different opmask registers may be done in either order. -/
theorem State.writeK_comm (s : State) {i j : Fin 8} (m m' : Mask) (h : i ≠ j) :
    (s.writeK i m).writeK j m' = (s.writeK j m').writeK i m := by
  simp only [State.writeK]
  rw [Vector.set_comm m m' (fun e => h (Fin.ext e))]

/-- What the destination held before a form does not show after it (40 R134). -/
theorem retire_writeK_dest (vl : VL) (o : Operands) (r : Mask) (s : State) (m : Mask) :
    retire vl o r (s.writeK o.kd m) = retire vl o r s := by
  simp only [retire, State.writeK_writeK_same]

/-- An earlier write to an opmask register other than the destination stands after the form. -/
theorem retire_writeK_other (vl : VL) (o : Operands) (r : Mask) (s : State) {i : Fin 8} (m : Mask) (h : i ≠ o.kd) :
    retire vl o r (s.writeK i m) = (retire vl o r s).writeK i m := by
  simp only [retire, State.writeK_comm s m r h]
  rfl

/-! ### What a form reads -/

/-- Selector 0 never reads a register, and a selector that is not 0 never reads k0 (R23). -/
theorem writemask_writeK_zero (kw : Fin 8) (s : State) (m : Mask) : writemask kw (s.writeK 0 m) = writemask kw s := by
  by_cases h : kw = 0
  · simp only [writemask, if_pos h]
  · simp only [writemask, if_neg h, State.readK_writeK_other _ _ _ _ h]

/-- `s'` agrees with `s` in all that a form with writemask selector `kw` reads (10_state R23 to R33): EFLAGS, MXCSR and the opmask
registers other than the writemask are left out. -/
structure SameReads (kw : Fin 8) (s s' : State) : Prop where
  writemask : writemask kw s' = writemask kw s
  vectors   : s'.v = s.v
  general   : s'.g = s.g
  rip       : s'.rip = s.rip
  memory    : s'.mem = s.mem
  config    : s'.cfg = s.cfg
  draws     : s'.draws = s.draws

namespace SameReads

variable {kw : Fin 8} {o : Operands} {s s' : State}

theorem readV_eq (h : SameReads kw s s') (r : Fin 32) : s'.readV r = s.readV r := by
  simp only [State.readV, h.vectors]

theorem readG_eq (h : SameReads kw s s') (r : Fin 16) : s'.readG r = s.readG r := by
  simp only [State.readG, h.general]

theorem indexValue_eq (h : SameReads kw s s') (ix : Option (Fin 16)) (scale : Fin 4) :
    indexValue ix scale s' = indexValue ix scale s := by
  cases ix with
  | none => rfl
  | some i => simp only [indexValue, h.readG_eq]

theorem effectiveAddress_eq (h : SameReads kw s s') (vl : VL) (len : Nat) (m : MemOp) :
    effectiveAddress vl len m s' = effectiveAddress vl len m s := by
  cases m with
  | base b d => simp only [effectiveAddress, h.readG_eq]
  | ripRel d => simp only [effectiveAddress, h.rip]
  | sib b ix scale d => simp only [effectiveAddress, h.readG_eq, h.indexValue_eq]
  | sibNoBase ix scale d => simp only [effectiveAddress, h.indexValue_eq]

theorem admitRead_eq (h : SameReads kw s s') (vl : VL) (ea : Word) (seg : Segment) (wm : Option Mask) :
    admitRead vl ea seg wm s' = admitRead vl ea seg wm s := by
  simp only [admitRead, h.config]

theorem dataByte_eq (h : SameReads kw s s') (ea : Word) (b : Nat) : dataByte ea b s' = dataByte ea b s := by
  simp only [dataByte, h.config, h.memory, h.draws]

theorem dataBytes_eq (h : SameReads kw s s') (vl : VL) (ea : Word) (wm : Option Mask) :
    dataBytes vl ea wm s' = dataBytes vl ea wm s := by
  simp only [dataBytes, h.config, h.dataByte_eq]

theorem src2Admit_eq (h : SameReads o.kw s s') (vl : VL) : src2Admit vl o s' = src2Admit vl o s := by
  simp only [src2Admit, h.effectiveAddress_eq, h.admitRead_eq, h.writemask]

theorem src2Value_eq (h : SameReads o.kw s s') (vl : VL) : src2Value vl o s' = src2Value vl o s := by
  simp only [src2Value, h.readV_eq, h.effectiveAddress_eq, h.dataBytes_eq, h.writemask]

theorem resultMask_eq (h : SameReads o.kw s s') (signed : Bool) (vl : VL) :
    resultMask signed vl o s' = resultMask signed vl o s := by
  simp only [resultMask, h.writemask, h.readV_eq, h.src2Value_eq]

theorem formStop_eq_none_iff (h : SameReads kw s s') (vl : VL) (imm : BitVec 8) :
    formStop vl imm s' = none ↔ formStop vl imm s = none := by
  simp only [formStop_eq_none, h.config]

/-- Noninterference: a form that completes in one state completes in every state that agrees in what it reads, with the
same mask. -/
theorem exec_eq_next {i : Instr} {t : State} (h : SameReads i.operands.kw s s') (hs : exec i s = .next t) :
    exec i s' = .next (retire i.form.vl i.operands (resultMask i.form.signed i.form.vl i.operands s) s') := by
  obtain ⟨hstop, hadmit, -⟩ := (exec_next i s t).1 hs
  refine (exec_next i s' _).2 ⟨(h.formStop_eq_none_iff ..).2 hstop, ?_, ?_⟩
  · rw [h.src2Admit_eq, hadmit]
  · rw [h.resultMask_eq]

end SameReads

/-- k0 is outside what a form reads, whatever its selector (R23). -/
theorem sameReads_writeK_zero (kw : Fin 8) (s : State) (m : Mask) : SameReads kw s (s.writeK 0 m) :=
  ⟨writemask_writeK_zero kw s m, rfl, rfl, rfl, rfl, rfl, rfl⟩

/-- EFLAGS and MXCSR are outside what a form reads (R29, R30). -/
theorem sameReads_flags (kw : Fin 8) (s : State) (e x : BitVec 32) : SameReads kw s { s with eflags := e, mxcsr := x } :=
  ⟨rfl, rfl, rfl, rfl, rfl, rfl, rfl⟩

/-! ### The bits of the result -/

/-- `CmpW` bit by bit: an enabled lane below KL holds its comparison, every other bit is 0 (40 R133). -/
theorem cmpW_getLsbD {n : Nat} (signed : Bool) {kl : Nat} (hkl : kl ≤ Config.maxKl) (p : Pred) (wm : Option Mask)
    (src1 src2 : BitVec n) (j : Nat) :
    (cmpW signed kl p wm src1 src2).getLsbD j =
      (decide (j < kl) && enabled wm j && compareLane signed p src1 src2 j) := by
  rw [cmpW, clearAbove_getLsbD, laneLoop_getLsbD _ _ _ kl hkl]
  by_cases hj : j < kl
  · cases enabled wm j <;> simp [hj]
  · simp [hj]

/-- The mask of a form bit by bit, over the elements of the whole first source register. -/
theorem resultMask_getLsbD (signed : Bool) (vl : VL) (o : Operands) (s : State) (j : Nat) :
    (resultMask signed vl o s).getLsbD j =
      (decide (j < vl.lanes) && enabled (writemask o.kw s) j &&
        (predOf o.imm8).holds (elemValue signed (element (s.readV o.s1) j))
          (elemValue signed (element (src2Value vl o s) j))) := by
  rw [resultMask, cmpW_getLsbD signed (lanes_le vl)]
  by_cases hj : j < vl.lanes
  · rw [compareLane, element_view vl _ j hj]
  · simp only [hj, decide_false, Bool.false_and]

/-- Selector 0 enables every lane (R23). -/
theorem enabled_writemask_zero (s : State) (j : Nat) : enabled (writemask 0 s) j = true := rfl

/-! ### k0, EFLAGS and MXCSR -/

/-- Settles O20: selector 0 enables every lane, and k0 is outside what a form reads, so that another value of it stays
beside the form's one write or is overwritten by it. -/
theorem selectorZeroIsNoWritemask : Obligations.SelectorZeroIsNoWritemask := by
  refine ⟨fun i s t hkw hs j hj => ?_, fun i s t m hs => ?_⟩
  · obtain ⟨-, -, rfl⟩ := (exec_next i s t).1 hs
    rw [retire_readK_dest, resultMask_getLsbD, hkw, enabled_writemask_zero]
    simp only [hj, decide_true, Bool.true_and]
  · rw [(sameReads_writeK_zero i.operands.kw s m).exec_eq_next hs]
    obtain ⟨-, -, rfl⟩ := (exec_next i s t).1 hs
    by_cases hkd : i.operands.kd = 0
    · rw [if_pos hkd, ← hkd, retire_writeK_dest]
    · rw [if_neg hkd, retire_writeK_other _ _ _ _ _ (Ne.symm hkd)]

/-- Settles O35: `retire` writes neither register, and both are outside what a form reads. -/
theorem eflagsNeitherReadNorWritten : Obligations.EflagsNeitherReadNorWritten := by
  intro i s t e x hs
  rw [(sameReads_flags i.operands.kw s e x).exec_eq_next hs]
  obtain ⟨-, -, rfl⟩ := (exec_next i s t).1 hs
  exact ⟨retire_eflags .., retire_mxcsr .., rfl⟩

end Sys2Proof.Machine
end

/-! ## The decoder on the bytes of a row: the verdicts by their bits (30_encoding) -/

section
namespace Sys2Proof

open Sys2Proof.Machine

/-! ### Which operand bytes a string begins with -/

/-- Without a SIB byte five bytes after ModRM are always enough, and X is unused (R91, R94). -/
theorem exists_operandBytes_noSib {h : Head} {bs : List Byte} (hmod : h.mod ≠ 3) (hrm : h.rm ≠ 4) (hlen : 5 ≤ bs.length) :
    ∃ t r src imm n, bs = t ++ r ∧ OperandBytes h t src true imm n := by
  match bs, hlen with
  | b0 :: b1 :: b2 :: b3 :: b4 :: r, _ =>
    by_cases h0 : h.mod = 0
    · by_cases h5 : h.rm = 5
      · exact ⟨[b0, b1, b2, b3, b4], r, _, _, _, rfl, .rip b0 b1 b2 b3 b4 hmod hrm h0 h5⟩
      · exact ⟨[b0], _, _, _, _, rfl, .base0 b0 hmod hrm h0 h5⟩
    · by_cases h1 : h.mod = 1
      · exact ⟨[b0, b1], _, _, _, _, rfl, .base1 b0 b1 hmod hrm h1⟩
      · exact ⟨[b0, b1, b2, b3, b4], r, _, _, _, rfl, .base2 b0 b1 b2 b3 b4 hmod hrm h0 h1⟩

/-- With a SIB byte six bytes after ModRM are always enough (R85, R91). -/
theorem exists_operandBytes_sib {h : Head} {bs : List Byte} (hmod : h.mod ≠ 3) (hrm : h.rm = 4) (hlen : 6 ≤ bs.length) :
    ∃ t r src imm n, bs = t ++ r ∧ OperandBytes h t src false imm n := by
  match bs, hlen with
  | sib :: b0 :: b1 :: b2 :: b3 :: b4 :: r, _ =>
    by_cases h0 : h.mod = 0
    · by_cases h5 : field sib 0 3 = 5
      · exact ⟨[sib, b0, b1, b2, b3, b4], r, _, _, _, rfl, .nobase sib b0 b1 b2 b3 b4 hmod hrm h0 h5⟩
      · exact ⟨[sib, b0], _, _, _, _, rfl, .sib0 sib b0 hmod hrm h0 h5⟩
    · by_cases h1 : h.mod = 1
      · exact ⟨[sib, b0, b1], _, _, _, _, rfl, .sib1 sib b0 b1 hmod hrm h1⟩
      · exact ⟨[sib, b0, b1, b2, b3, b4], r, _, _, _, rfl, .sib2 sib b0 b1 b2 b3 b4 hmod hrm h0 h1⟩

/-- Six bytes after ModRM always spell a second source (R81, R96). -/
theorem exists_operandBytes (h : Head) {bs : List Byte} (hlen : 6 ≤ bs.length) :
    ∃ t r src xu imm n, bs = t ++ r ∧ OperandBytes h t src xu imm n := by
  by_cases hmod : h.mod = 3
  · match bs, hlen with
    | imm :: r, _ => exact ⟨[imm], r, _, _, _, _, rfl, .reg imm hmod⟩
  · by_cases hrm : h.rm = 4
    · obtain ⟨t, r, src, imm, n, hbs, ht⟩ := exists_operandBytes_sib hmod hrm hlen
      exact ⟨t, r, src, _, imm, n, hbs, ht⟩
    · obtain ⟨t, r, src, imm, n, hbs, ht⟩ := exists_operandBytes_noSib hmod hrm (by omega : 5 ≤ bs.length)
      exact ⟨t, r, src, _, imm, n, hbs, ht⟩

/-! ### The reserved and the ignored bits -/

theorem VL.ll_le (vl : VL) : vl.ll ≤ 2 := by cases vl <;> decide

/-- Only L'L = 11b names no vector length (R82, R102). -/
theorem vlOfLL_none_inv {p2 : Byte} (h : vlOfLL (field p2 5 2) = none) : p2.toNat / 32 % 4 = 3 := by
  have hll : ∀ ll : BitVec 2, vlOfLL ll = none → ll.toNat = 3 := by decide
  exact (field_toNat p2 5 2).symm.trans (hll _ h)

/-- A head with a reserved bit set builds #UD, with a cause that holds of it (R100 to R103). -/
theorem build_reserved (h : Head) (src : Src2) (xu : Bool) (imm : Byte) (n : Nat)
    (hres : h.p2.toNat / 128 = 1 ∨ h.p2.toNat / 16 % 2 = 1 ∨ h.p2.toNat / 32 % 4 = 3 ∨ h.p0.toNat / 128 = 0 ∨
      h.p0.toNat / 16 % 2 = 0) :
    ∃ c, h.build src xu imm n = .ud c n ∧
      ((c = .evexZ ∧ h.p2.toNat / 128 = 1) ∨ (c = .evexB ∧ h.p2.toNat / 16 % 2 = 1) ∨
        (c = .evexLL ∧ h.p2.toNat / 32 % 4 = 3) ∨
        (c = .destination ∧ (h.p0.toNat / 128 = 0 ∨ h.p0.toNat / 16 % 2 = 0))) := by
  have hp0 := h.p0.isLt
  have hp2 := h.p2.isLt
  simp only [Head.build, bit_eq, decide_eq_true_eq]
  by_cases hz : h.p2.toNat / 2 ^ 7 % 2 = 1
  · exact ⟨.evexZ, if_pos hz, .inl ⟨rfl, by omega⟩⟩
  rw [if_neg hz]
  by_cases hb : h.p2.toNat / 2 ^ 4 % 2 = 1
  · exact ⟨.evexB, if_pos hb, .inr (.inl ⟨rfl, hb⟩)⟩
  rw [if_neg hb]
  cases hvl : vlOfLL (field h.p2 5 2) with
  | none => exact ⟨.evexLL, rfl, .inr (.inr (.inl ⟨rfl, vlOfLL_none_inv hvl⟩))⟩
  | some vl =>
    have hll := vlOfLL_inv _ _ hvl
    have hlt := vl.ll_le
    have hdest : h.p0.toNat / 128 = 0 ∨ h.p0.toNat / 16 % 2 = 0 := by omega
    exact ⟨.destination, if_pos (by simp; omega), .inr (.inr (.inr ⟨rfl, hdest⟩))⟩

/-- A row with stored X = 0 that its memory form does not use builds a refusal (R105). -/
theorem build_xUnused (f : Form) {p0 p1 p2 op m : Byte} (h : EvexRow f p0 p1 p2 op) (hx : p0.toNat / 64 % 2 = 0) (src : Src2)
    (imm : Byte) (n : Nat) : Head.build ⟨f.signed, p0, p1, p2, m⟩ src true imm n = .refuse .xWithoutSib n := by
  obtain ⟨-, ⟨hR, hR'⟩, -, ⟨hz, hb⟩, hll, -⟩ := h
  simp only [Head.build, bit_eq, vlOfLL_ll p2 f.vl hll]
  rw [if_neg (by simp; omega), if_neg (by simp; omega), if_neg (by simp; omega), if_pos (by simp; omega)]

/-! ### From the bytes of a row to its instruction -/

/-- A row is read from ModRM on. -/
theorem decode_evexRow (f : Form) {p0 p1 p2 op : Byte} (h : EvexRow f p0 p1 p2 op) (m : Byte) (rest : List Byte) :
    decode (0x62 :: p0 :: p1 :: p2 :: op :: m :: rest) = Head.afterModrm ⟨f.signed, p0, p1, p2, m⟩ rest :=
  decode_row f.signed p0 p1 p2 op m rest h.map h.fixedWpp.1 h.fixedWpp.2 (h.opcode ▸ opcodeSigned_form f)

/-- A row followed by operand bytes decodes to the row's instruction with the second source they spell. -/
theorem decode_operandBytes (f : Form) {p0 p1 p2 op m : Byte} (h : EvexRow f p0 p1 p2 op) {t : List Byte} {src : Src2}
    {xu : Bool} {imm : Byte} {n : Nat} (ht : OperandBytes ⟨f.signed, p0, p1, p2, m⟩ t src xu imm n)
    (hx : xu = true → p0.toNat / 64 % 2 = 1) (rest : List Byte) :
    decode (0x62 :: p0 :: p1 :: p2 :: op :: m :: (t ++ rest)) =
      .instr (f.instr ⟨Head.kd ⟨f.signed, p0, p1, p2, m⟩, Head.kw ⟨f.signed, p0, p1, p2, m⟩,
        Head.s1 ⟨f.signed, p0, p1, p2, m⟩, src, imm⟩) n := by
  rw [decode_evexRow f h, operandBytes_read ht, build_row f p0 p1 p2 op m h src xu hx]

/-- The second source's register number from the stored bits (R89): no value exceeds 31. -/
theorem s2_val (sg : Bool) (p0 p1 p2 m : Byte) :
    (Head.s2 ⟨sg, p0, p1, p2, m⟩).val = 16 * logicalX p0 + 8 * logicalB p0 + m.toNat % 8 := by
  simp only [Head.s2, Head.rm, Fin.ofNat, field_toNat, inv_eq, logicalX, logicalB]
  omega

/-! ### The encoder's bytes -/

/-- The encoder writes the bytes of its form's row. -/
theorem evexRow_encode (f : Form) (x b : Nat) (s1 : Fin 32) (kw : Fin 8) :
    EvexRow f (encP0 x b) (encP1 s1) (encP2 f.vl s1 kw) f.opcode := by
  have hll := f.vl.ll_le
  constructor <;> simp only [encP0_toNat, encP1_toNat, encP2_toNat] <;> omega

/-- The bytes determine the operands, but for the second source. -/
theorem operands_eq_of_headOperands {p1 p2 m imm : Byte} {o o' : Operands} (h : HeadOperands p1 p2 m imm o)
    (h' : HeadOperands p1 p2 m imm o') (hsrc : o.src2 = o'.src2) : o = o' := by
  obtain ⟨hkd, hkw, hs1, himm⟩ := h
  obtain ⟨hkd', hkw', hs1', himm'⟩ := h'
  cases o
  cases o'
  simp_all only [Operands.mk.injEq, Fin.ext_iff, and_self]

/-- The encoder writes the operand numbers where the decoder finds them (R87, R88, R90). -/
theorem headOperands_encode (vl : VL) (o : Operands) {m : Byte} (hm : m.toNat / 8 % 8 = o.kd.val) :
    HeadOperands (encP1 o.s1) (encP2 vl o.s1 o.kw) m o.imm8 o := by
  have hll := vl.ll_le
  have hs1 := o.s1.isLt
  have hkw := o.kw.isLt
  refine ⟨hm.symm, ?_, ?_, rfl⟩ <;> simp only [encP1_toNat, encP2_toNat] <;> omega

/-- Where ModRM and what follows are operand bytes, decoding the encoder's bytes gives the operands back. -/
theorem decode_encode_of_operandBytes {f : Form} {o : Operands} {m : Byte} {t : List Byte} {xu : Bool} {n : Nat}
    (henc : o.src2.encode o.kd ++ [o.imm8] = m :: t) (hm : m.toNat / 8 % 8 = o.kd.val)
    (ht : OperandBytes ⟨f.signed, encP0 o.src2.xBit o.src2.bBit, encP1 o.s1, encP2 f.vl o.s1 o.kw, m⟩ t o.src2 xu o.imm8 n)
    (hx : xu = true → o.src2.xBit = 0) (rest : List Byte) : decode (f.encode o ++ rest) = .instr (f.instr o) n := by
  have hbytes : f.encode o ++ rest = 0x62 :: encP0 o.src2.xBit o.src2.bBit :: encP1 o.s1 :: encP2 f.vl o.s1 o.kw ::
      f.opcode :: m :: (t ++ rest) := by
    rw [Form.encode, List.append_assoc [_, _, _, _, _], henc]
    rfl
  have hops := operands_eq_of_headOperands (headOperands f.signed (encP0 o.src2.xBit o.src2.bBit) (encP1 o.s1)
    (encP2 f.vl o.s1 o.kw) m o.imm8 o.src2) (headOperands_encode f.vl o hm) rfl
  rw [hbytes, decode_operandBytes f (evexRow_encode f _ _ _ _) ht (fun h => by rw [encP0_toNat, hx h]; omega), hops]

/-- The base register comes back from stored B and the low three bits the encoder writes (R91). -/
theorem baseReg_encode (sg : Bool) (x : Nat) (p1 p2 m : Byte) (b : Fin 16) (f : BitVec 3)
    (hf : f.toNat = b.val % 8) :
    Head.baseReg ⟨sg, encP0 x (b.val / 8), p1, p2, m⟩ f = b := by
  apply Fin.ext
  simp only [Head.baseReg, Fin.ofNat, inv_eq, encP0_toNat, hf]
  omega

/-- The index register, or its absence, comes back from stored X and the low three bits the encoder writes (R91). -/
theorem indexReg_encode (sg : Bool) (b : Nat) (p1 p2 m : Byte) {ix : Option (Fin 16)} (hix : indexAllowed ix = true)
    (f : BitVec 3) (hf : f.toNat = indexNumber ix % 8) :
    Head.indexReg ⟨sg, encP0 (indexNumber ix / 8) b, p1, p2, m⟩ f = ix := by
  have hnum : (Fin.ofNat 16 (8 * inv (encP0 (indexNumber ix / 8) b) 6 + f.toNat) : Fin 16) = ix.getD 4 := by
    apply Fin.ext
    simp only [Fin.ofNat, inv_eq, encP0_toNat, hf, indexNumber]
    omega
  simp only [Head.indexReg, hnum]
  cases ix with
  | none => rfl
  | some i => exact if_neg (by simpa [indexAllowed] using hix)

/-- A SIB byte, a displacement of the size mod calls for, and imm8 are operand bytes (R91). -/
theorem operandBytes_sib {h : Head} {sib : Byte} (imm : Byte) (d : Disp) (hrm : h.rm = 4) (hmod : h.mod = BitVec.ofNat 2 d.mod)
    (hbase : d = .none → field sib 0 3 ≠ 5) :
    OperandBytes h (sib :: (d.encode ++ [imm]))
      (.mem (.sib (h.baseReg (field sib 0 3)) (h.indexReg (field sib 3 3)) (Fin.ofNat 4 (field sib 6 2).toNat) d)) false imm
      (8 + d.size) := by
  cases d with
  | none => exact .sib0 sib imm (by rw [hmod]; decide) hrm hmod (hbase rfl)
  | d8 d =>
    have hmod1 : h.mod = 1 := hmod
    exact .sib1 sib d imm (by rw [hmod1]; decide) hrm hmod1
  | d32 d =>
    have hmod2 : h.mod = 2 := hmod
    have bytes := OperandBytes.sib2 sib (d.extractLsb' 0 8) (d.extractLsb' 8 8) (d.extractLsb' 16 8) (d.extractLsb' 24 8) imm
      (by rw [hmod2]; decide) hrm (by rw [hmod2]; decide) (by rw [hmod2]; decide)
    rwa [le32_join] at bytes

theorem Disp.mod_le (d : Disp) : d.mod ≤ 2 := by cases d <;> simp [Disp.mod]

/-- The operand bytes that the encoder writes for a SIB form with a base (R91). -/
theorem operandBytes_encode_sib (sg : Bool) (p1 p2 imm : Byte) (kd : Fin 8) {b : Fin 16} {ix : Option (Fin 16)} (sc : Fin 4)
    {d : Disp} (hix : indexAllowed ix = true) (hd : dispAllowed b d = true) :
    OperandBytes ⟨sg, encP0 (indexNumber ix / 8) (b.val / 8), p1, p2, encFields d.mod kd 4⟩
      (encFields sc (indexNumber ix % 8) (b.val % 8) :: (d.encode ++ [imm])) (.mem (.sib b ix sc d)) false imm (8 + d.size) := by
  have hsc := sc.isLt
  have hdm := d.mod_le
  have hm := encFields_toNat d.mod kd 4 (by omega) kd.isLt (by decide)
  have hs := encFields_toNat sc (indexNumber ix % 8) (b.val % 8) hsc (by omega) (by omega)
  generalize encFields d.mod kd 4 = m at hm ⊢
  generalize encFields sc (indexNumber ix % 8) (b.val % 8) = sib at hs ⊢
  have hbase : (field sib 0 3).toNat = b.val % 8 := by rw [field_toNat]; omega
  have hindex : (field sib 3 3).toNat = indexNumber ix % 8 := by rw [field_toNat]; omega
  have hscale : Fin.ofNat 4 (field sib 6 2).toNat = sc := by
    apply Fin.ext
    simp only [Fin.ofNat, field_toNat]
    omega
  have h5 : d = .none → field sib 0 3 ≠ 5 := by
    rintro rfl e
    simp [dispAllowed, ← hbase, e] at hd
  have bytes := operandBytes_sib (h := ⟨sg, encP0 (indexNumber ix / 8) (b.val / 8), p1, p2, m⟩) imm d
    ((rm_eq_iff _ _ _ _ _ 4 (by decide)).2 (by omega)) ((mod_eq_iff _ _ _ _ _ _ (by omega)).2 (by omega)) h5
  rwa [baseReg_encode _ _ _ _ _ _ _ hbase, indexReg_encode _ _ _ _ _ hix _ hindex, hscale] at bytes

/-- A SIB form with a base decodes as it was encoded, its scale kept also where it has no index (R91, R105). -/
theorem decode_encode_sib (f : Form) (o : Operands) {b : Fin 16} {ix : Option (Fin 16)} (sc : Fin 4) {d : Disp}
    (hix : indexAllowed ix = true) (hd : dispAllowed b d = true) (rest : List Byte) :
    decode (f.encode { o with src2 := .mem (.sib b ix sc d) } ++ rest) =
      .instr (f.instr { o with src2 := .mem (.sib b ix sc d) }) (8 + d.size) := by
  have hdm := d.mod_le
  have hm := encFields_toNat d.mod o.kd 4 (by omega) o.kd.isLt (by decide)
  exact decode_encode_of_operandBytes rfl (by rw [hm]; show _ = o.kd.val; omega) (operandBytes_encode_sib _ _ _ _ _ _ hix hd)
    (by simp) rest

/-! ### The fixed bits (R104) -/

/-- The bytes of a row have P0[3] = 0 and P1[2] = 1. -/
theorem fixedBits_of_selects {f : Form} {b0 p0 p1 p2 op : Byte} {rest : List Byte}
    (h : f.selects (b0 :: p0 :: p1 :: p2 :: op :: rest) = true) : p0.toNat / 8 % 2 = 0 ∧ p1.toNat / 4 % 2 = 1 := by
  simp only [Form.selects, rowMask, Form.rowMatch, List.take_succ_cons, List.take_zero, List.zipWith_cons_cons, beq_iff_eq,
    List.cons.injEq] at h
  obtain ⟨-, hp0, hp1, -⟩ := h
  have h3 : p0.getLsbD 3 = false := by simpa using congrArg (·.getLsbD 3) hp0
  have h2 : p1.getLsbD 2 = true := by simpa using congrArg (·.getLsbD 2) hp1
  rw [bit_eq, decide_eq_false_iff_not] at h3
  rw [bit_eq, decide_eq_true_eq] at h2
  omega

/-- Whatever is wrong with P0 is refused after two bytes. -/
theorem decode_p0Defect {p0 : Byte} {d : DecodeRefusal} (h : p0Defect p0 = some d) (rest : List Byte) :
    decode (0x62 :: p0 :: rest) = .refuse d 2 := by
  simp [decode, decodeEvex, h]

/-- Whatever is wrong with P1 is refused after three bytes. -/
theorem decode_p1Defect {p0 p1 : Byte} {d : DecodeRefusal} (h0 : p0Defect p0 = none) (h : p1Defect p1 = some d)
    (rest : List Byte) : decode (0x62 :: p0 :: p1 :: rest) = .refuse d 3 := by
  simp [decode, decodeEvex, h0, h]

theorem p0Defect_fixedBit {p0 : Byte} (h : p0.toNat / 8 % 2 = 1) : p0Defect p0 = some .fixedBits :=
  if_pos (by rw [bit_eq]; exact decide_eq_true h)

theorem p1Defect_fixedBit {p1 : Byte} (h : p1.toNat / 4 % 2 = 0) : p1Defect p1 = some .fixedBits :=
  if_pos (by rw [bit_eq]; simp [h])

/-! ### The obligations -/

/-- Settles O6: the byte after ModRM is the immediate of a register form, and `Head.s2` is R89's sum. -/
theorem registerFormOperandNumbers : Obligations.RegisterFormOperandNumbers := by
  intro f p0 p1 p2 op m imm rest hrow hmod
  have hreg : OperandBytes ⟨f.signed, p0, p1, p2, m⟩ [imm] _ false imm 7 :=
    .reg imm ((mod_eq_iff _ _ _ _ _ 3 (by decide)).2 hmod)
  exact ⟨_, _, decode_operandBytes f hrow hreg (by simp) rest, headOperands _ _ _ _ _ _ _, rfl, s2_val _ _ _ _ _⟩

/-- Settles O9: seven bytes after the opcode spell a second source, and `build` looks at the reserved bits before all else. -/
theorem reservedEvexBitsAreUd : Obligations.ReservedEvexBitsAreUd := by
  intro p0 p1 p2 op rest hmap hw hpp hop hlen hres
  obtain ⟨sg, hsg⟩ : ∃ sg, opcodeSigned op = some sg := by
    rcases hop with rfl | rfl
    · exact ⟨false, rfl⟩
    · exact ⟨true, rfl⟩
  match rest, hlen with
  | m :: bs, hlen =>
    obtain ⟨t, r, src, xu, imm, n, rfl, ht⟩ :=
      exists_operandBytes ⟨sg, p0, p1, p2, m⟩ (Nat.le_of_succ_le_succ hlen)
    obtain ⟨c, hud, hcause⟩ := build_reserved ⟨sg, p0, p1, p2, m⟩ src xu imm n hres
    exact ⟨c, n, by rw [decode_row sg p0 p1 p2 op m _ hmap hw hpp hsg, operandBytes_read ht, hud], hcause⟩

/-- Settles O11: without SIB the form does not use X, so that `build` refuses X = 0; with SIB and no index the scale is
kept by the decoder and not looked at by the address. -/
theorem unusedBitsOfMemoryForms : Obligations.UnusedBitsOfMemoryForms := by
  refine ⟨fun f p0 p1 p2 op m rest hrow hx hmod hrm hlen => ?_, fun f o b sc d rest hd => decode_encode_sib f o sc rfl hd rest,
    fun vl len b sc sc' d e s => ⟨rfl, rfl⟩⟩
  obtain ⟨t, r, src, imm, n, rfl, ht⟩ := exists_operandBytes_noSib (h := ⟨f.signed, p0, p1, p2, m⟩)
    (mt (mod_eq_iff _ _ _ _ _ 3 (by decide)).1 hmod) (mt (rm_eq_iff _ _ _ _ _ 4 (by decide)).1 hrm) hlen
  exact ⟨n, by rw [decode_evexRow f hrow, operandBytes_read ht, build_xUnused f hrow hx]⟩

/-- Settles O56: the mask of every row covers both fixed bits, and the decoder checks P0, then P1, before all else. -/
theorem violatedFixedBitsAreRefused : Obligations.ViolatedFixedBitsAreRefused := by
  intro p0 p1 p2 op rest hbits
  refine ⟨fun f => ?_, ?_⟩
  · rw [Bool.eq_false_iff]
    intro hsel
    obtain ⟨hp0, hp1⟩ := fixedBits_of_selects hsel
    omega
  · cases hdef : p0Defect p0 with
    | some d => exact ⟨d, 2, decode_p0Defect hdef _⟩
    | none =>
      have hp0 := p0Defect_none_inv p0 hdef
      exact ⟨.fixedBits, 3, decode_p1Defect hdef (p1Defect_fixedBit (by omega)) _⟩

end Sys2Proof
end

/-! ## The effective address as integer arithmetic (30_encoding R91 to R94) -/

section
namespace Sys2Proof.Machine

/-- A word as the integer it holds. -/
theorem ofInt_toNat (x : Word) : BitVec.ofInt 64 x.toNat = x := by
  rw [BitVec.ofInt_natCast, BitVec.ofNat_toNat, BitVec.setWidth_eq]

/-- A word made from an integer holds its value modulo 2^64. -/
theorem toNat_of_eq_ofInt {x : Word} {z : Int} (h : x = BitVec.ofInt 64 z) : (x.toNat : Int) = z % 2 ^ 64 := by
  rw [h, BitVec.toNat_ofInt]
  exact Int.toNat_of_nonneg (Int.emod_nonneg z (by decide))

/-- The displacement is its signed value, a byte scaled by N (R93). -/
theorem dispValue_eq_ofInt (vl : VL) (d : Disp) : dispValue vl d = BitVec.ofInt 64 (dispInt vl d) := by
  cases d with
  | none => rfl
  | d8 d => rw [dispValue, dispInt, BitVec.ofInt_mul, BitVec.ofInt_natCast]; rfl
  | d32 d => rfl

theorem indexValue_eq_ofInt (ix : Option (Fin 16)) (sc : Fin 4) (s : State) :
    indexValue ix sc s = BitVec.ofInt 64 (indexInt ix sc s) := by
  cases ix with
  | none => rfl
  | some i =>
    rw [indexValue, indexInt, BitVec.ofInt_mul, ofInt_toNat, ← BitVec.ofInt_natCast]
    norm_cast

section
variable (vl : VL) (len : Nat) (s : State) (b : Fin 16) (ix : Option (Fin 16)) (sc : Fin 4)

theorem effectiveAddress_base_toNat (d : Disp) :
    ((effectiveAddress vl len (.base b d) s).toNat : Int) = ((s.readG b).toNat + dispInt vl d) % 2 ^ 64 :=
  toNat_of_eq_ofInt (by rw [BitVec.ofInt_add, ofInt_toNat, ← dispValue_eq_ofInt]; rfl)

theorem effectiveAddress_sib_toNat (d : Disp) :
    ((effectiveAddress vl len (.sib b ix sc d) s).toNat : Int) =
      ((s.readG b).toNat + indexInt ix sc s + dispInt vl d) % 2 ^ 64 :=
  toNat_of_eq_ofInt (by
    rw [BitVec.ofInt_add, BitVec.ofInt_add, ofInt_toNat, ← indexValue_eq_ofInt, ← dispValue_eq_ofInt]; rfl)

theorem effectiveAddress_sibNoBase_toNat (d : BitVec 32) :
    ((effectiveAddress vl len (.sibNoBase ix sc d) s).toNat : Int) = (indexInt ix sc s + d.toInt) % 2 ^ 64 :=
  toNat_of_eq_ofInt (by rw [BitVec.ofInt_add, ← indexValue_eq_ofInt]; rfl)

theorem effectiveAddress_ripRel_toNat (d : BitVec 32) :
    ((effectiveAddress vl len (.ripRel d) s).toNat : Int) = (s.rip.toNat + len + d.toInt) % 2 ^ 64 :=
  toNat_of_eq_ofInt (by rw [BitVec.ofInt_add, BitVec.ofInt_add, ofInt_toNat, BitVec.ofInt_natCast]; rfl)

end

/-- A RIP-relative form has 11 bytes (R81, R94). -/
theorem length_ripRel {o : Operands} {d : BitVec 32} (h : o.src2 = .mem (.ripRel d)) : o.length = 11 := by
  rw [Operands.length, h]
  rfl

/-- Settles O25: each term of the address is the word of an integer, and words add modulo 2^64. -/
theorem effectiveAddressOfEachForm : Obligations.EffectiveAddressOfEachForm := by
  intro vl s b ix sc d8 d32 len base index
  refine ⟨?_, effectiveAddress_base_toNat vl len s b (.d8 d8), effectiveAddress_base_toNat vl len s b (.d32 d32), ?_,
    effectiveAddress_sib_toNat vl len s b ix sc (.d8 d8), effectiveAddress_sib_toNat vl len s b ix sc (.d32 d32),
    effectiveAddress_sibNoBase_toNat vl len s ix sc d32, effectiveAddress_ripRel_toNat vl len s d32, fun o => length_ripRel, rfl⟩
  · have hlt := (s.readG b).isLt
    rw [effectiveAddress_base_toNat, dispInt, add_zero, Int.emod_eq_of_lt (by omega) (by omega)]
  · rw [effectiveAddress_sib_toNat, dispInt, add_zero]

end Sys2Proof.Machine
end

/-! ## The checks of a form that come before its operands (30_encoding R106, R107) -/

section
namespace Sys2Proof.Machine

/-- A check that stops a form is what the form answers. -/
theorem exec_of_formStop {i : Instr} {s : State} {st : Stop} (h : formStop i.form.vl i.operands.imm8 s = some st) :
    exec i s = st.outcome := by
  rw [exec_eq_runForm, runForm, h]

/-- Without opmask and ZMM state enabled, every form stops with #UD (R107). -/
theorem formStop_osDisabled {s : State} (vl : VL) (imm : BitVec 8) (hmode : s.cfg.mode = .bits64)
    (hos : s.cfg.osAvx512Enabled = false) : formStop vl imm s = some (takeException (.ud .osDisabled) s) := by
  simp [formStop, hmode, hos]

/-- With the state enabled, a form that the processor lacks stops with #UD (R107). -/
theorem formStop_cpuid {vl : VL} {s : State} (imm : BitVec 8) (hmode : s.cfg.mode = .bits64)
    (hos : s.cfg.osAvx512Enabled = true) (hcpuid : cpuidOk vl s.cfg = false) :
    formStop vl imm s = some (takeException (.ud .cpuid) s) := by
  simp [formStop, hmode, hos, hcpuid]

/-- An immediate of 8 or more has a bit of imm8[7:3] set, which only the policy `ignore` accepts (R106). -/
theorem immAccepted_eq_false {imm : BitVec 8} {c : Launch} (hpolicy : c.imm8Policy = .refuse) (himm : 8 ≤ imm.toNat) :
    immAccepted imm c = false := by
  have hlt := imm.isLt
  have hbits : imm.extractLsb' 3 5 ≠ 0 := fun e => by
    have := (field_eq_iff imm 3 5 0 (by decide)).1 e
    omega
  simpa [immAccepted, hpolicy] using hbits

/-- A ready form stops for its immediate alone (R106). -/
theorem formStop_of_ready {vl : VL} {imm : BitVec 8} {s : State} (hready : formReady vl s = true)
    (himm : immAccepted imm s.cfg = false) : formStop vl imm s = some (.refuse .reservedImm8) := by
  simp only [formReady, Bool.and_eq_true, beq_iff_eq, Bool.not_eq_true'] at hready
  obtain ⟨⟨⟨hmode, hos⟩, hcpuid⟩, hts⟩ := hready
  simp [formStop, hmode, hos, hcpuid, hts, himm]

/-- The predicate is in imm8[2:0] (R95). -/
theorem predOf_and_seven (imm : BitVec 8) : predOf (imm &&& 7) = predOf imm := by
  have hlow : (imm &&& 7).extractLsb' 0 3 = imm.extractLsb' 0 3 := by
    rw [BitVec.extractLsb'_and]
    exact BitVec.and_allOnes
  rw [predOf, predOf, hlow]

/-- A form looks at its immediate to accept it and to select the predicate, and for nothing else. -/
theorem runForm_congr_imm (signed : Bool) (vl : VL) (o : Operands) {imm : BitVec 8} {s : State}
    (haccept : immAccepted imm s.cfg = immAccepted o.imm8 s.cfg) (hpred : predOf imm = predOf o.imm8) :
    runForm signed vl { o with imm8 := imm } s = runForm signed vl o s := by
  have hstop : formStop vl imm s = formStop vl o.imm8 s := by simp only [formStop, haccept]
  have hmask : resultMask signed vl { o with imm8 := imm } s = resultMask signed vl o s := by
    simp only [resultMask, hpred]
    rfl
  simp only [runForm, hstop, hmask]
  rfl

/-- Under the policy `ignore` every immediate is accepted (R106). -/
theorem immAccepted_of_ignore (imm : BitVec 8) {c : Launch} (hpolicy : c.imm8Policy = .ignore) : immAccepted imm c = true := by
  simp [immAccepted, hpolicy]

/-- Settles O39: a ready form stops for a reserved immediate under `refuse`; under `ignore` it looks at imm8[2:0] only. -/
theorem reservedImmediateBits : Obligations.ReservedImmediateBits := by
  refine ⟨rfl, fun i s hready hpolicy himm => ?_, fun f o s hpolicy => ?_⟩
  · exact exec_of_formStop (formStop_of_ready hready (immAccepted_eq_false hpolicy himm))
  · have haccept : immAccepted (o.imm8 &&& 7) s.cfg = immAccepted o.imm8 s.cfg := by
      rw [immAccepted_of_ignore _ hpolicy, immAccepted_of_ignore _ hpolicy]
    simp only [exec_eq_runForm, form_instr_parts, runForm_congr_imm _ _ o haccept (predOf_and_seven o.imm8)]

/-- Settles O37: the state is checked before the CPUID expression, and both after the mode. -/
theorem unavailableFormIsUd : Obligations.UnavailableFormIsUd := by
  intro i s hmode hno
  cases hos : s.cfg.osAvx512Enabled with
  | false => exact ⟨.osDisabled, exec_of_formStop (formStop_osDisabled _ _ hmode hos), .inl ⟨rfl, rfl⟩⟩
  | true =>
    have hcpuid : cpuidOk i.form.vl s.cfg = false := by simpa [hos] using hno
    exact ⟨.cpuid, exec_of_formStop (formStop_cpuid _ hmode hos hcpuid), .inr ⟨rfl, hcpuid⟩⟩

end Sys2Proof.Machine
end

/-! ## Masking is zeroing (40_semantics R134) -/

section
namespace Sys2Proof.Machine

/-- A selector that is not 0 enables a lane by the register's bit (10_state R22). -/
theorem enabled_writemask_register {kw : Fin 8} (h : kw ≠ 0) (s : State) (j : Nat) :
    enabled (writemask kw s) j = (s.readK kw).getLsbD j := by
  rw [writemask, if_neg h, enabled]

/-- A write to an opmask register other than the writemask leaves the writemask as it was. -/
theorem writemask_writeK_other {kw i : Fin 8} (h : kw ≠ i) (s : State) (m : Mask) :
    writemask kw (s.writeK i m) = writemask kw s := by
  simp only [writemask, State.readK_writeK_other _ _ _ _ h]

/-- An opmask register other than the writemask is outside what a form reads. -/
theorem sameReads_writeK_other {kw i : Fin 8} (h : kw ≠ i) (s : State) (m : Mask) : SameReads kw s (s.writeK i m) :=
  ⟨writemask_writeK_other h s m, rfl, rfl, rfl, rfl, rfl, rfl⟩

/-- A masked-off bit of the result is 0. -/
theorem resultMask_getLsbD_of_disabled (signed : Bool) (vl : VL) {o : Operands} {s : State} {j : Nat}
    (h : enabled (writemask o.kw s) j = false) : (resultMask signed vl o s).getLsbD j = false := by
  rw [resultMask_getLsbD, h, Bool.and_false, Bool.false_and]

/-- A bit of the result from KL on is 0. -/
theorem resultMask_getLsbD_of_lanes_le (signed : Bool) {vl : VL} (o : Operands) (s : State) {j : Nat} (h : vl.lanes ≤ j) :
    (resultMask signed vl o s).getLsbD j = false := by
  rw [resultMask_getLsbD, decide_eq_false h.not_gt, Bool.false_and, Bool.false_and]

/-- Settles O18: the destination holds `resultMask`, and its old value is neither read, where it is not the writemask, nor kept. -/
theorem maskingIsZeroing : Obligations.MaskingIsZeroing := by
  intro i s t hs
  obtain ⟨-, -, ht⟩ := (exec_next i s t).1 hs
  have hdest : t.readK i.operands.kd = resultMask i.form.signed i.form.vl i.operands s := by
    rw [ht, retire_readK_dest]
  refine ⟨fun hkw => enabled_writemask_register hkw s, fun j hoff => ?_, fun j hj => ?_, fun hne old => ?_⟩
  · rw [hdest, resultMask_getLsbD_of_disabled _ _ hoff]
  · rw [hdest, resultMask_getLsbD_of_lanes_le _ _ _ hj]
  · rw [(sameReads_writeK_other hne.symm s old).exec_eq_next hs, retire_writeK_dest, ht]

end Sys2Proof.Machine
end

/-! ## Falling through to the next instruction (40_semantics R147, 10_state R28) -/

section
namespace Sys2Proof

/-- The decoder answers an instruction with its length (30_encoding R81). -/
theorem decode_length {bs : List Byte} {i : Instr} {n : Nat} (h : decode bs = .instr i n) : n = i.length := by
  obtain ⟨sg, p0, p1, p2, op, m, rest, -, -, -, -, -, hread⟩ := decode_inv h
  obtain ⟨t, r, src, xu, imm, n', -, ht, hbuild⟩ := afterModrm_inv hread
  obtain ⟨-, hn', -⟩ := operandBytes_wf ht
  obtain ⟨hn, vl, hi, -⟩ := build_inv hbuild
  rw [hn, hn', hi, Instr.length, (form_instr_parts _ _).1, Operands.length]

namespace Machine

/-- A completed form has moved `rip` by its length. -/
theorem exec_rip {i : Instr} {s t : State} (h : exec i s = .next t) : t.rip = s.rip + BitVec.ofNat 64 i.length := by
  obtain ⟨-, -, rfl⟩ := (exec_next i s t).1 h
  rw [retire_rip, Instr.length]

/-- Short of the top of the address space, words add as integers. -/
theorem toNat_add_ofNat {x : Word} {n : Nat} (h : x.toNat + n < 2 ^ 64) : (x + BitVec.ofNat 64 n).toNat = x.toNat + n := by
  rw [BitVec.toNat_add, BitVec.toNat_ofNat, Nat.add_mod_mod, Nat.mod_eq_of_lt h]

/-- Settles O45: the fetch has checked that `rip + L` does not wrap, and the form moves `rip` by the length it decoded with. -/
theorem stepFallsThrough : Obligations.StepFallsThrough := by
  intro s t h
  obtain ⟨i, n, -, hdec, -, hnowrap, hexec⟩ := step_next s t h
  have hlen : n = i.length := decode_length hdec
  obtain ⟨hmin, hmax⟩ : 7 ≤ n ∧ n ≤ 12 := hlen ▸ Laws.length_range i.operands
  exact ⟨i, n, hdec, hlen, hmin, hmax, by rw [exec_rip hexec, ← hlen, toNat_add_ofNat hnowrap]⟩

end Machine
end Sys2Proof
end

/-! ## A switched task is #NM (60_exceptions R174) -/

section
namespace Sys2Proof.Machine

/-- Past both #UD conditions, CR0.TS stops every form with #NM, whatever its immediate (R174). -/
theorem formStop_taskSwitched {vl : VL} {s : State} (imm : BitVec 8) (hmode : s.cfg.mode = .bits64)
    (hos : s.cfg.osAvx512Enabled = true) (hcpuid : cpuidOk vl s.cfg = true) (hts : s.cfg.cr0Ts = true) :
    formStop vl imm s = some (takeException .nm s) := by
  simp [formStop, hmode, hos, hcpuid, hts]

/-- Settles O38: CR0.TS is checked before the immediate and before any operand is read, so it is what the form answers. -/
theorem taskSwitchedIsNm : Obligations.TaskSwitchedIsNm := by
  intro i s hmode hos hcpuid hts
  exact exec_of_formStop (formStop_taskSwitched i.operands.imm8 hmode hos hcpuid hts)

end Sys2Proof.Machine
end

/-! ## The decoder and the encoder: the round trip, and bytes that decode read backwards (30_encoding) -/

section
namespace Sys2Proof

open Sys2Proof.Machine

/-! ### The operand bytes the encoder writes -/

theorem rm_toNat (sg : Bool) (p0 p1 p2 m : Byte) : (Head.rm ⟨sg, p0, p1, p2, m⟩).toNat = m.toNat % 8 := by
  rw [Head.rm, field_toNat, pow_zero, Nat.div_one]
  rfl

/-- A displacement of the size mod calls for, and imm8, are operand bytes of a form without SIB (R91). -/
theorem operandBytes_base {h : Head} (imm : Byte) (d : Disp) (hrm : h.rm ≠ 4) (hmod : h.mod = BitVec.ofNat 2 d.mod)
    (h5 : d = .none → h.rm ≠ 5) :
    OperandBytes h (d.encode ++ [imm]) (.mem (.base (h.baseReg h.rm) d)) true imm (7 + d.size) := by
  cases d with
  | none => exact .base0 imm (by rw [hmod]; decide) hrm hmod (h5 rfl)
  | d8 d =>
    have hmod1 : h.mod = 1 := hmod
    exact .base1 d imm (by rw [hmod1]; decide) hrm hmod1
  | d32 d =>
    have hmod2 : h.mod = 2 := hmod
    have bytes := OperandBytes.base2 (d.extractLsb' 0 8) (d.extractLsb' 8 8) (d.extractLsb' 16 8) (d.extractLsb' 24 8) imm
      (by rw [hmod2]; decide) hrm (by rw [hmod2]; decide) (by rw [hmod2]; decide)
    rwa [le32_join] at bytes

/-- The operand byte that the encoder writes for a register form is imm8 alone (R89). -/
theorem operandBytes_encode_reg (sg : Bool) (p1 p2 imm : Byte) (kd : Fin 8) (r : Fin 32) :
    OperandBytes ⟨sg, encP0 (r.val / 16) (r.val / 8 % 2), p1, p2, encFields 3 kd (r.val % 8)⟩ [imm] (.reg r) false imm 7 := by
  have hm := encFields_toNat 3 kd (r.val % 8) (by decide) kd.isLt (by omega)
  generalize encFields 3 kd (r.val % 8) = m at hm ⊢
  have hs2 : Head.s2 ⟨sg, encP0 (r.val / 16) (r.val / 8 % 2), p1, p2, m⟩ = r := by
    apply Fin.ext
    rw [s2_val, logicalX, logicalB, encP0_toNat]
    omega
  have bytes := OperandBytes.reg (h := ⟨sg, encP0 (r.val / 16) (r.val / 8 % 2), p1, p2, m⟩) imm
    ((mod_eq_iff _ _ _ _ _ 3 (by decide)).2 (by omega))
  rwa [hs2] at bytes

/-- The operand bytes that the encoder writes for a form with a base and no SIB (R91). -/
theorem operandBytes_encode_base (sg : Bool) (p1 p2 imm : Byte) (kd : Fin 8) {b : Fin 16} {d : Disp}
    (hb : baseNeedsNoSib b = true) (hd : dispAllowed b d = true) :
    OperandBytes ⟨sg, encP0 0 (b.val / 8), p1, p2, encFields d.mod kd (b.val % 8)⟩ (d.encode ++ [imm]) (.mem (.base b d)) true
      imm (7 + d.size) := by
  have hdm := d.mod_le
  have hm := encFields_toNat d.mod kd (b.val % 8) (by omega) kd.isLt (by omega)
  generalize encFields d.mod kd (b.val % 8) = m at hm ⊢
  have hb4 : b.val % 8 ≠ 4 := by simpa [baseNeedsNoSib] using hb
  have hd5 : d = .none → b.val % 8 ≠ 5 := by
    rintro rfl
    simpa [dispAllowed] using hd
  have bytes := operandBytes_base (h := ⟨sg, encP0 0 (b.val / 8), p1, p2, m⟩) imm d
    (mt (rm_eq_iff _ _ _ _ _ 4 (by decide)).1 (by omega)) ((mod_eq_iff _ _ _ _ _ _ (by omega)).2 (by omega))
    (fun hnone => mt (rm_eq_iff _ _ _ _ _ 5 (by decide)).1 (by have := hd5 hnone; omega))
  rwa [baseReg_encode _ _ _ _ _ b _ (by rw [rm_toNat]; omega)] at bytes

/-- The operand bytes that the encoder writes for the RIP-relative form (R94). -/
theorem operandBytes_encode_ripRel (sg : Bool) (p0 p1 p2 imm : Byte) (kd : Fin 8) (d : BitVec 32) :
    OperandBytes ⟨sg, p0, p1, p2, encFields 0 kd 5⟩ (le32 d ++ [imm]) (.mem (.ripRel d)) true imm 11 := by
  have hm := encFields_toNat 0 kd 5 (by decide) kd.isLt (by decide)
  generalize encFields 0 kd 5 = m at hm ⊢
  have hmod : Head.mod ⟨sg, p0, p1, p2, m⟩ = 0 := (mod_eq_iff _ _ _ _ _ 0 (by decide)).2 (by omega)
  have hrm : Head.rm ⟨sg, p0, p1, p2, m⟩ = 5 := (rm_eq_iff _ _ _ _ _ 5 (by decide)).2 (by omega)
  have bytes := OperandBytes.rip (d.extractLsb' 0 8) (d.extractLsb' 8 8) (d.extractLsb' 16 8) (d.extractLsb' 24 8) imm
    (by rw [hmod]; decide) (by rw [hrm]; decide) hmod hrm
  rwa [le32_join] at bytes

/-- The operand bytes that the encoder writes for a SIB form without a base (R91). -/
theorem operandBytes_encode_sibNoBase (sg : Bool) (b : Nat) (p1 p2 imm : Byte) (kd : Fin 8) {ix : Option (Fin 16)} (sc : Fin 4)
    (d : BitVec 32) (hix : indexAllowed ix = true) :
    OperandBytes ⟨sg, encP0 (indexNumber ix / 8) b, p1, p2, encFields 0 kd 4⟩
      (encFields sc (indexNumber ix % 8) 5 :: (le32 d ++ [imm])) (.mem (.sibNoBase ix sc d)) false imm 12 := by
  have hm := encFields_toNat 0 kd 4 (by decide) kd.isLt (by decide)
  have hs := encFields_toNat sc (indexNumber ix % 8) 5 sc.isLt (by omega) (by decide)
  generalize encFields 0 kd 4 = m at hm ⊢
  generalize encFields sc (indexNumber ix % 8) 5 = sib at hs ⊢
  have hindex : (field sib 3 3).toNat = indexNumber ix % 8 := by rw [field_toNat]; omega
  have hscale : Fin.ofNat 4 (field sib 6 2).toNat = sc := by
    apply Fin.ext
    simp only [Fin.ofNat, field_toNat]
    omega
  have hmod : Head.mod ⟨sg, encP0 (indexNumber ix / 8) b, p1, p2, m⟩ = 0 := (mod_eq_iff _ _ _ _ _ 0 (by decide)).2 (by omega)
  have bytes := OperandBytes.nobase sib (d.extractLsb' 0 8) (d.extractLsb' 8 8) (d.extractLsb' 16 8) (d.extractLsb' 24 8) imm
    (by rw [hmod]; decide) ((rm_eq_iff _ _ _ _ _ 4 (by decide)).2 (by omega)) hmod
    ((field_eq_iff sib 0 3 5 (by decide)).2 (by omega))
  rwa [le32_join, indexReg_encode _ _ _ _ _ hix _ hindex, hscale] at bytes

/-- What the encoder writes for a well-formed second source: ModRM with the destination's number, then operand bytes that
spell that source, and X is 0 where the form does not use it (R87, R91). -/
theorem operandBytes_encode (sg : Bool) (p1 p2 imm : Byte) (kd : Fin 8) {src : Src2} (hsrc : src.wellFormed = true) :
    ∃ m t xu n, src.encode kd ++ [imm] = m :: t ∧ m.toNat / 8 % 8 = kd.val ∧
      OperandBytes ⟨sg, encP0 src.xBit src.bBit, p1, p2, m⟩ t src xu imm n ∧ (xu = true → src.xBit = 0) := by
  have hkd : ∀ {hi lo : Nat}, hi < 4 → lo < 8 → (encFields hi kd lo).toNat / 8 % 8 = kd.val := fun hhi hlo => by
    rw [encFields_toNat _ _ _ hhi kd.isLt hlo]
    omega
  cases src with
  | reg r => exact ⟨_, _, _, _, rfl, hkd (by decide) (by omega), operandBytes_encode_reg sg p1 p2 imm kd r, by simp⟩
  | mem m =>
    cases m with
    | base b d =>
      obtain ⟨hb, hd⟩ := Bool.and_eq_true_iff.1 hsrc
      have := d.mod_le
      exact ⟨_, _, _, _, rfl, hkd (by omega) (by omega), operandBytes_encode_base sg p1 p2 imm kd hb hd, fun _ => rfl⟩
    | ripRel d =>
      exact ⟨_, _, _, _, rfl, hkd (by decide) (by decide), operandBytes_encode_ripRel sg _ p1 p2 imm kd d, fun _ => rfl⟩
    | sib b ix sc d =>
      obtain ⟨hix, hd⟩ := Bool.and_eq_true_iff.1 hsrc
      have := d.mod_le
      exact ⟨_, _, _, _, rfl, hkd (by omega) (by decide), operandBytes_encode_sib sg p1 p2 imm kd sc hix hd, by simp⟩
    | sibNoBase ix sc d =>
      exact ⟨_, _, _, _, rfl, hkd (by decide) (by decide), operandBytes_encode_sibNoBase sg _ p1 p2 imm kd sc d hsrc, by simp⟩

/-- An instruction is its form with its operands. -/
theorem instr_form_operands (i : Instr) : i.form.instr i.operands = i := by cases i <;> rfl

theorem instr_wellFormed (i : Instr) : i.wellFormed = i.operands.src2.wellFormed := by cases i <;> rfl

/-- The decoder reads the encoder's bytes back, whatever bytes follow. -/
theorem decode_encode {i : Instr} (hi : i.wellFormed = true) (rest : List Byte) :
    decode (encode i ++ rest) = .instr i i.length := by
  rw [instr_wellFormed] at hi
  obtain ⟨m, t, xu, n, henc, hm, ht, hx⟩ := operandBytes_encode i.form.signed (encP1 i.operands.s1)
    (encP2 i.form.vl i.operands.s1 i.operands.kw) i.operands.imm8 i.operands.kd hi
  have hdec := decode_encode_of_operandBytes henc hm ht hx rest
  rw [instr_form_operands] at hdec
  rwa [← decode_length hdec]

/-- Settles O2: the encoder's bytes are the bytes of the form's row and then operand bytes, which the decoder reads as what
they spell. -/
theorem decodeOfEncodeReturnsInstr : Obligations.DecodeOfEncodeReturnsInstr := fun _ rest hi => decode_encode hi rest

/-! ### Bytes that decode, read backwards -/

/-- Bytes that decode are the bytes of a row followed by operand bytes, whose number with ModRM and what comes before it is the
length; the instruction is the row's, with the second source they spell. -/
theorem decode_instr_inv {bs : List Byte} {i : Instr} {n : Nat} (h : decode bs = .instr i n) :
    ∃ f p0 p1 p2 op m t r src xu imm, bs = 0x62 :: p0 :: p1 :: p2 :: op :: m :: (t ++ r) ∧ EvexRow f p0 p1 p2 op ∧
      OperandBytes ⟨f.signed, p0, p1, p2, m⟩ t src xu imm n ∧ (xu = true → p0.toNat / 64 % 2 = 1) ∧
      i = f.instr ⟨Head.kd ⟨f.signed, p0, p1, p2, m⟩, Head.kw ⟨f.signed, p0, p1, p2, m⟩,
        Head.s1 ⟨f.signed, p0, p1, p2, m⟩, src, imm⟩ := by
  obtain ⟨sg, p0, p1, p2, op, m, rest, rfl, hmap, hw, hpp, hop, hread⟩ := decode_inv h
  obtain ⟨t, r, src, xu, imm, n', rfl, ht, hbuild⟩ := afterModrm_inv hread
  obtain ⟨rfl, vl, hi, hz, hb, hll, hR, hR', hx⟩ := build_inv hbuild
  exact ⟨⟨sg, vl⟩, p0, p1, p2, op, m, t, r, src, xu, imm, rfl,
    ⟨hmap, ⟨hR, hR'⟩, ⟨hw, hpp⟩, ⟨hz, hb⟩, hll, opcodeSigned_inv op sg hop vl⟩, ht, hx, hi⟩

/-- Settles O4: what operand bytes spell is well formed, and their number is the length's. -/
theorem decodedInstrIsWellFormed : Obligations.DecodedInstrIsWellFormed := by
  intro bs i n h
  have hlen := decode_length h
  obtain ⟨f, p0, p1, p2, op, m, t, r, src, xu, imm, rfl, -, ht, -, rfl⟩ := decode_instr_inv h
  obtain ⟨hwf, -, hn⟩ := operandBytes_wf ht
  obtain ⟨hmin, hmax⟩ : 7 ≤ n ∧ n ≤ 12 := hlen ▸ Laws.length_range _
  refine ⟨by rw [form_instr_wellFormed, hwf], hlen, ?_, hmin, hmax⟩
  simp only [List.length_cons, List.length_append]
  omega

/-- Settles O5: the bytes of the row and the operand bytes are the first n bytes, and they decode whatever follows. -/
theorem decoderReadsNoFurther : Obligations.DecoderReadsNoFurther := by
  intro bs rest i n h
  obtain ⟨f, p0, p1, p2, op, m, t, r, src, xu, imm, rfl, hrow, ht, hx, rfl⟩ := decode_instr_inv h
  obtain ⟨-, -, hn⟩ := operandBytes_wf ht
  have htake : (0x62 :: p0 :: p1 :: p2 :: op :: m :: (t ++ r)).take n = 0x62 :: p0 :: p1 :: p2 :: op :: m :: t := by
    rw [← hn]
    simp only [List.take_succ_cons, List.take_left]
  rw [htake]
  exact decode_operandBytes f hrow ht hx rest

/-! ### The rows' masks (R98) -/

theorem VL.ll_injective {vl vl' : VL} (h : vl.ll = vl'.ll) : vl = vl' := by
  cases vl <;> cases vl' <;> simp_all [VL.ll]

/-- A form is determined by its opcode byte and its L'L. -/
theorem Form.eq_of_opcode_of_ll {f g : Form} (hop : f.opcode = g.opcode) (hll : f.vl.ll = g.vl.ll) : f = g := by
  have hsigned : f.signed = g.signed := Option.some.inj (by rw [← opcodeSigned_form f, ← opcodeSigned_form g, hop])
  cases f
  cases g
  exact (Form.mk.injEq ..).mpr ⟨hsigned, VL.ll_injective hll⟩

/-- What the masks of P0, P1 and P2 keep of a byte. -/
theorem and_rowMask_p0 (b : Byte) : b &&& 0x0F = 0x03 ↔ b.toNat % 16 = 3 := by revert b; decide +kernel
theorem and_rowMask_p1 (b : Byte) : b &&& 0x87 = 0x85 ↔ b.toNat / 128 = 1 ∧ b.toNat % 8 = 5 := by revert b; decide +kernel
theorem and_rowMask_p2 (b : Byte) (vl : VL) : b &&& 0xF0 = BitVec.ofNat 8 (32 * vl.ll) ↔ b.toNat / 16 = 2 * vl.ll := by
  revert b; cases vl <;> decide +kernel

/-- Match and mask of a row as arithmetic on the bytes. -/
theorem selects_iff (f : Form) (p0 p1 p2 op : Byte) (rest : List Byte) :
    f.selects (0x62 :: p0 :: p1 :: p2 :: op :: rest) = true ↔ p0.toNat % 16 = 3 ∧ (p1.toNat / 128 = 1 ∧ p1.toNat % 8 = 5) ∧
      p2.toNat / 16 = 2 * f.vl.ll ∧ op = f.opcode := by
  have h62 : (0x62 : Byte) &&& 0xFF = 0x62 := by decide
  have hop : op &&& 0xFF = op := BitVec.and_allOnes
  simp only [Form.selects, rowMask, Form.rowMatch, List.take_succ_cons, List.take_zero, List.zipWith_cons_cons,
    List.zipWith_nil_left, beq_iff_eq, List.cons.injEq, h62, hop, and_rowMask_p0, and_rowMask_p1, and_rowMask_p2, true_and,
    and_true]

/-- Settles O3: the masks keep the fixed bits, z, b, L'L and the opcode, which determine the form. -/
theorem decodedBytesSelectOnlyTheirRow : Obligations.DecodedBytesSelectOnlyTheirRow := by
  intro bs i n h g
  obtain ⟨f, p0, p1, p2, op, m, t, r, src, xu, imm, rfl, hrow, -, -, rfl⟩ := decode_instr_inv h
  obtain ⟨hmap, -, hfixed, ⟨hz, hb⟩, hll, hop⟩ := hrow
  rw [selects_iff, (form_instr_parts f _).2]
  constructor
  · rintro ⟨-, -, hll', hop'⟩
    exact Form.eq_of_opcode_of_ll (hop'.symm.trans hop) (by omega)
  · rintro rfl
    exact ⟨hmap, hfixed, by omega, hop⟩

/-! ### The memory forms (R91, R94) -/

theorem baseReg_val (sg : Bool) (p0 p1 p2 m : Byte) (f : BitVec 3) :
    (Head.baseReg ⟨sg, p0, p1, p2, m⟩ f).val = 8 * logicalB p0 + f.toNat := by
  have := f.isLt
  simp only [Head.baseReg, Fin.ofNat, inv_eq, logicalB]
  omega

/-- Settles O7: each row of R91 without SIB is one of the shapes of operand bytes. -/
theorem memoryFormsWithoutSib : Obligations.MemoryFormsWithoutSib := by
  intro f p0 p1 p2 op m d0 d1 d2 d3 imm rest hrow hx hm4
  have hmod : ∀ {c}, c < 4 → (Head.mod ⟨f.signed, p0, p1, p2, m⟩ = BitVec.ofNat 2 c ↔ m.toNat / 64 = c) :=
    fun hc => mod_eq_iff _ _ _ _ _ _ hc
  have hmod3 : m.toNat / 64 ≠ 3 → Head.mod ⟨f.signed, p0, p1, p2, m⟩ ≠ 3 := mt (hmod (by decide)).1
  have hrm4 : Head.rm ⟨f.signed, p0, p1, p2, m⟩ ≠ 4 := mt (rm_eq_iff _ _ _ _ _ 4 (by decide)).1 hm4
  have hrm5 := rm_eq_iff f.signed p0 p1 p2 m 5 (by decide)
  refine ⟨_, Head.baseReg ⟨f.signed, p0, p1, p2, m⟩ (Head.rm ⟨f.signed, p0, p1, p2, m⟩), d3 ++ d2 ++ d1 ++ d0,
    headOperands f.signed p0 p1 p2 m imm (.reg 0), by rw [baseReg_val, rm_toNat], join32_toNat d0 d1 d2 d3, ?_, ?_, ?_, ?_⟩
  · intro h0 h5
    exact decode_operandBytes f hrow (.base0 imm (hmod3 (by omega)) hrm4 ((hmod (by decide)).2 h0) (mt hrm5.1 h5))
      (fun _ => hx) rest
  · intro h0 h5
    exact decode_operandBytes f hrow (.rip d0 d1 d2 d3 imm (hmod3 (by omega)) hrm4 ((hmod (by decide)).2 h0) (hrm5.2 h5))
      (fun _ => hx) rest
  · intro h1
    exact decode_operandBytes f hrow (.base1 d0 imm (hmod3 (by omega)) hrm4 ((hmod (by decide)).2 h1)) (fun _ => hx) rest
  · intro h2
    exact decode_operandBytes f hrow (.base2 d0 d1 d2 d3 imm (hmod3 (by omega)) hrm4
      (mt (hmod (c := 0) (by decide)).1 (by omega)) (mt (hmod (c := 1) (by decide)).1 (by omega))) (fun _ => hx) rest

/-- Settles O8: each row of R91 with SIB is one of the shapes of operand bytes. -/
theorem memoryFormsWithSib : Obligations.MemoryFormsWithSib := by
  intro f p0 p1 p2 op m sib d0 d1 d2 d3 imm rest hrow hm4
  have hsib := sib.isLt
  have hmod : ∀ {c}, c < 4 → (Head.mod ⟨f.signed, p0, p1, p2, m⟩ = BitVec.ofNat 2 c ↔ m.toNat / 64 = c) :=
    fun hc => mod_eq_iff _ _ _ _ _ _ hc
  have hmod3 : m.toNat / 64 ≠ 3 → Head.mod ⟨f.signed, p0, p1, p2, m⟩ ≠ 3 := mt (hmod (by decide)).1
  have hrm4 : Head.rm ⟨f.signed, p0, p1, p2, m⟩ = 4 := (rm_eq_iff _ _ _ _ _ 4 (by decide)).2 hm4
  have hbase5 : field sib 0 3 = 5 ↔ sib.toNat % 8 = 5 := by
    rw [← Nat.div_one sib.toNat]
    exact field_eq_iff sib 0 3 5 (by decide)
  refine ⟨_, Head.baseReg ⟨f.signed, p0, p1, p2, m⟩ (field sib 0 3), Fin.ofNat 16 (8 * inv p0 6 + (field sib 3 3).toNat),
    Fin.ofNat 4 (field sib 6 2).toNat, _, d3 ++ d2 ++ d1 ++ d0, headOperands f.signed p0 p1 p2 m imm (.reg 0), ?_, ?_, rfl, ?_,
    join32_toNat d0 d1 d2 d3, ?_, ?_, ?_, ?_⟩
  · rw [baseReg_val, field_toNat, pow_zero, Nat.div_one]
    rfl
  · simp only [Fin.ofNat, inv_eq, field_toNat, logicalX]
    omega
  · simp only [Fin.ofNat, field_toNat]
    omega
  · intro h0 h5
    exact decode_operandBytes f hrow (.sib0 sib imm (hmod3 (by omega)) hrm4 ((hmod (by decide)).2 h0) (mt hbase5.1 h5))
      (by simp) rest
  · intro h0 h5
    exact decode_operandBytes f hrow (.nobase sib d0 d1 d2 d3 imm (hmod3 (by omega)) hrm4 ((hmod (by decide)).2 h0) (hbase5.2 h5))
      (by simp) rest
  · intro h1
    exact decode_operandBytes f hrow (.sib1 sib d0 imm (hmod3 (by omega)) hrm4 ((hmod (by decide)).2 h1)) (by simp) rest
  · intro h2
    exact decode_operandBytes f hrow (.sib2 sib d0 d1 d2 d3 imm (hmod3 (by omega)) hrm4
      (mt (hmod (c := 0) (by decide)).1 (by omega)) (mt (hmod (c := 1) (by decide)).1 (by omega))) (by simp) rest

/-! ### Bytes of no form in scope (R104, R110 to R112) -/

theorem opcodeSigned_none {op : Byte} (h : op ≠ 0x3E ∧ op ≠ 0x3F) : opcodeSigned op = none := by
  rw [opcodeSigned, if_neg h.2, if_neg h.1]

/-- Another opcode byte is refused after five bytes. -/
theorem decode_otherOpcode {p0 p1 op : Byte} (h0 : p0Defect p0 = none) (h1 : p1Defect p1 = none) (hop : opcodeSigned op = none)
    (p2 : Byte) (rest : List Byte) : decode (0x62 :: p0 :: p1 :: p2 :: op :: rest) = .refuse .otherOpcode 5 := by
  simp [decode, decodeEvex, h0, h1, hop]

/-- A first byte other than 62H begins no EVEX encoding. -/
theorem decode_cons_of_ne {b0 : Byte} (h : b0 ≠ 0x62) (rest : List Byte) : decode (b0 :: rest) = decodeOther b0 rest := if_neg h

theorem isUdPrefix_ne {b : Byte} (h : isUdPrefix b = true) : b ≠ 0x62 := by
  rintro rfl
  cases h

theorem decodeOther_udPrefix {b0 : Byte} (h : isUdPrefix b0 = true) (b1 : Byte) (rest : List Byte) :
    decodeOther b0 (b1 :: rest) = if b1 = 0x62 then .ud .legacyPrefix 2 else .refuse .firstByte 2 :=
  if_pos h

theorem decodeOther_noUdPrefix {b0 : Byte} (h : isUdPrefix b0 = false) (rest : List Byte) :
    decodeOther b0 rest = .refuse (if isOtherPrefix b0 then .legacyPrefix else .firstByte) 1 := by
  cases hoth : isOtherPrefix b0 <;> simp [decodeOther, h, hoth]

/-- Settles O10: P0, P1 and the opcode byte are looked at in this order, and each has its refusals; so has a first byte other
than 62H. -/
theorem foreignEncodingsAreRefused : Obligations.ForeignEncodingsAreRefused := by
  refine ⟨fun p0 p1 p2 op rest h => ?_, fun p0 rest h => decode_p0Defect (p0Defect_fixedBit h) rest,
    fun p0 p1 rest h0 h1 => decode_p1Defect (p0Defect_none p0 h0) (p1Defect_fixedBit h1) rest, fun b0 rest hb0 hud => ?_,
    fun b0 b1 rest hud hb1 => ?_⟩
  · cases hp0 : p0Defect p0 with
    | some d => exact ⟨d, 2, decode_p0Defect hp0 _⟩
    | none =>
      cases hp1 : p1Defect p1 with
      | some d => exact ⟨d, 3, decode_p1Defect hp0 hp1 _⟩
      | none =>
        have hmap := p0Defect_none_inv p0 hp0
        obtain ⟨hw, hpp⟩ := p1Defect_none_inv p1 hp1
        have hop : op ≠ 0x3E ∧ op ≠ 0x3F := by
          rcases h with h | h | h | h
          · exact absurd hmap h
          · omega
          · exact absurd hpp h
          · exact h
        exact ⟨.otherOpcode, 5, decode_otherOpcode hp0 hp1 (opcodeSigned_none hop) p2 rest⟩
  · exact ⟨_, by rw [decode_cons_of_ne hb0, decodeOther_noUdPrefix hud]⟩
  · rw [decode_cons_of_ne (isUdPrefix_ne hud), decodeOther_udPrefix hud, if_neg hb1]

/-- LOCK, operand size and the repeat prefixes, and REX, which is 40H to 4FH (R110). -/
theorem isUdPrefix_of_mem {b : Byte} (h : b ∈ [0xF0, 0x66, 0xF2, 0xF3] ∨ b.toNat / 16 = 4) : isUdPrefix b = true := by
  rcases h with h | h
  · revert b
    decide
  · have hrex : field b 4 4 = 4 := (field_eq_iff b 4 4 4 (by decide)).2 (by omega)
    simp [isUdPrefix, hrex]

/-- Settles O12: R110's prefixes are `isUdPrefix`'s, R111's are `isOtherPrefix`'s, and no byte is both. -/
theorem legacyPrefixVerdicts : Obligations.LegacyPrefixVerdicts := by
  have hother : ∀ b ∈ [(0x26 : Byte), 0x2E, 0x36, 0x3E, 0x64, 0x65, 0x67],
      b ≠ 0x62 ∧ isUdPrefix b = false ∧ isOtherPrefix b = true := by decide
  refine ⟨fun b rest h => ?_, fun b rest h => ?_⟩
  · have hud := isUdPrefix_of_mem h
    rw [decode_cons_of_ne (isUdPrefix_ne hud), decodeOther_udPrefix hud, if_pos rfl]
  · obtain ⟨hne, hud, hoth⟩ := hother b h
    rw [decode_cons_of_ne hne, decodeOther_noUdPrefix hud, hoth, if_pos rfl]

/-- Settles O1: the nine strings are evaluated one by one. -/
theorem handWrittenWordsDecode : Obligations.HandWrittenWordsDecode := by
  refine ⟨?_, ?_, ?_, ?_, ?_, ?_, ?_, ?_, ?_⟩ <;> decide

end Sys2Proof
end

/-! ## The predicates, the integers compared, and the mask (40 section 1, 2, 4, 5) -/

section
namespace Sys2Proof.Machine

/-- Settles O13: one line of R10's table for each vector length. -/
theorem lanesOfEachLength : Obligations.LanesOfEachLength :=
  ⟨rfl, rfl, rfl, fun vl => ⟨bits_lanes vl, by cases vl <;> rfl⟩⟩

/-- Settles O14: the immediate is one of 256. -/
theorem predicateOfImmediate : Obligations.PredicateOfImmediate := by
  unfold Obligations.PredicateOfImmediate
  decide +kernel

section
variable (a b : Int)

@[simp] theorem Pred.holds_eq : Pred.eq.holds a b = decide (a = b) := rfl
@[simp] theorem Pred.holds_lt : Pred.lt.holds a b = decide (a < b) := rfl
@[simp] theorem Pred.holds_le : Pred.le.holds a b = decide (a ≤ b) := rfl
@[simp] theorem Pred.holds_never : Pred.never.holds a b = false := rfl
@[simp] theorem Pred.holds_neq : Pred.neq.holds a b = !decide (a = b) := rfl
@[simp] theorem Pred.holds_nlt : Pred.nlt.holds a b = !decide (a < b) := rfl
@[simp] theorem Pred.holds_nle : Pred.nle.holds a b = !decide (a ≤ b) := rfl
@[simp] theorem Pred.holds_always : Pred.always.holds a b = true := rfl

end

/-- Settles O15: each OP is the relation it is named after, or the negation of one. -/
theorem predicateMeaning : Obligations.PredicateMeaning := by
  intro a b
  simp

/-- On one value twice an OP holds exactly where it admits equality (R142). -/
theorem Pred.holds_self (p : Pred) (a : Int) : p.holds a a = decide (p ∈ [Pred.eq, .le, .nlt, .always]) := by
  cases p <;> simp

/-! ### Signed and unsigned elements (R132) -/

theorem elemValue_unsigned (x : Elem) : elemValue false x = x.toNat := rfl

theorem elemValue_signed (x : Elem) :
    elemValue true x = if x.toNat < 2 ^ 15 then (x.toNat : Int) else x.toNat - 2 ^ 16 := by
  show x.toInt = _
  rw [BitVec.toInt_eq_toNat_cond]
  split <;> split <;> omega

/-- Bit 15 of an element is set from 2^15 on. -/
theorem elem_bit15 (x : Elem) : x.getLsbD 15 = decide (2 ^ 15 ≤ x.toNat) :=
  (BitVec.msb_eq_getLsbD_last x).symm.trans (BitVec.msb_eq_decide x)

/-- Both readings tell elements apart. -/
theorem elemValue_inj (signed : Bool) (x y : Elem) : elemValue signed x = elemValue signed y ↔ x = y := by
  cases signed with
  | false => rw [elemValue_unsigned, elemValue_unsigned, Int.natCast_inj, BitVec.toNat_inj]
  | true => exact BitVec.toInt_inj

/-- The two readings order a pair alike exactly where its bits 15 agree. -/
theorem Pred.holds_signed_eq_unsigned_iff {p : Pred} (hp : p ∈ [Pred.lt, .le, .nlt, .nle]) (x y : Elem) :
    p.holds (elemValue true x) (elemValue true y) = p.holds (elemValue false x) (elemValue false y) ↔
      x.getLsbD 15 = y.getLsbD 15 := by
  have hx := x.isLt
  have hy := y.isLt
  simp only [List.mem_cons, List.not_mem_nil, or_false] at hp
  rw [elem_bit15, elem_bit15, decide_eq_decide, elemValue_signed, elemValue_signed, elemValue_unsigned, elemValue_unsigned]
  rcases hp with rfl | rfl | rfl | rfl <;>
    simp only [holds_lt, holds_le, holds_nlt, holds_nle, Bool.not_inj_iff, decide_eq_decide] <;> split_ifs <;> omega

/-- Settles O16: equality is the same under both readings, and the two orders agree on a pair exactly where its bits 15 do. -/
theorem signednessOfElements : Obligations.SignednessOfElements := by
  intro x y
  have hx := x.isLt
  refine ⟨rfl, elemValue_signed x, ?_, ?_, ?_, ?_⟩
  · rw [elemValue_signed]
    split <;> omega
  · rw [elemValue_unsigned]
    omega
  · simp [elemValue_inj]
  · exact fun p hp => not_congr (Pred.holds_signed_eq_unsigned_iff hp x y)

/-! ### The mask bit by bit (R133, R142) -/

/-- Settles O17: the loop writes each bit below KL once, and the bits above are cleared. -/
theorem compareMaskBitByBit : Obligations.CompareMaskBitByBit :=
  fun _ signed _ p wm src1 src2 j hkl => cmpW_getLsbD signed hkl p wm src1 src2 j

/-- The loop in place leaves, below `kl`, the bits that were set and whose comparison holds: iteration `j` still finds bit `j`
as it was, since no other iteration writes it (R142). -/
theorem inPlaceLoop_getLsbD (cmp : Nat → Bool) (d : Mask) (i : Nat) :
    ∀ kl, kl ≤ Config.maxKl → (inPlaceLoop cmp kl d).getLsbD i = if i < kl then d.getLsbD i && cmp i else d.getLsbD i
  | 0, _ => rfl
  | kl + 1, h => by
    rw [inPlaceLoop, setBit_getLsbD _ _ _ _ (by omega), inPlaceLoop_getLsbD cmp d kl kl (by omega),
      inPlaceLoop_getLsbD cmp d i kl (by omega)]
    by_cases hi : i = kl
    · subst hi
      cases d.getLsbD i <;> simp
    · have hlt : i < kl + 1 ↔ i < kl := by omega
      simp only [hi, hlt, if_false]

/-- Settles O22: both loops leave the same bits. -/
theorem inPlaceCompareAgrees : Obligations.InPlaceCompareAgrees := by
  intro n signed kl p m src1 src2 hkl
  apply BitVec.eq_of_getLsbD_eq
  intro j _
  rw [cmpW_getLsbD signed hkl, cmpWInPlace, clearAbove_getLsbD, inPlaceLoop_getLsbD _ _ _ _ hkl]
  by_cases hj : j < kl
  · simp [hj, enabled]
  · simp [hj]

/-! ### The identities (R146) -/

section
variable {n kl : Nat} (hkl : kl ≤ Config.maxKl) (wm : Option Mask) (a b : BitVec n)
include hkl

/-- Two compares are one mask where each lane's comparisons agree. -/
theorem cmpW_congr {g g' : Bool} {p p' : Pred} {a' b' : BitVec n}
    (h : ∀ j, compareLane g p a b j = compareLane g' p' a' b' j) : cmpW g kl p wm a b = cmpW g' kl p' wm a' b' := by
  apply BitVec.eq_of_getLsbD_eq
  intro j _
  rw [cmpW_getLsbD g hkl, cmpW_getLsbD g' hkl, h]

/-- The union of two compares is the compare by the disjunction of their predicates. -/
theorem cmpW_or {g : Bool} {p q r : Pred} (h : ∀ x y, r.holds x y = (p.holds x y || q.holds x y)) :
    cmpW g kl p wm a b ||| cmpW g kl q wm a b = cmpW g kl r wm a b := by
  apply BitVec.eq_of_getLsbD_eq
  intro j _
  rw [BitVec.getLsbD_or, cmpW_getLsbD g hkl, cmpW_getLsbD g hkl, cmpW_getLsbD g hkl, compareLane, compareLane, compareLane, h,
    Bool.and_or_distrib_left]

/-- Compares by predicates that exclude each other have no bit in common. -/
theorem cmpW_and_eq_zero {g : Bool} {p q : Pred} (h : ∀ x y, (p.holds x y && q.holds x y) = false) :
    cmpW g kl p wm a b &&& cmpW g kl q wm a b = 0 := by
  apply BitVec.eq_of_getLsbD_eq
  intro j _
  rw [BitVec.getLsbD_and, cmpW_getLsbD g hkl, cmpW_getLsbD g hkl, compareLane, compareLane]
  refine Eq.trans ?_ BitVec.getLsbD_zero.symm
  cases decide (j < kl) && enabled wm j with
  | false => rfl
  | true => rw [Bool.true_and, Bool.true_and, h]

theorem cmpW_never (g : Bool) : cmpW g kl .never wm a b = 0 := by
  apply BitVec.eq_of_getLsbD_eq
  intro j _
  rw [cmpW_getLsbD g hkl, compareLane, Pred.holds_never, Bool.and_false]
  exact BitVec.getLsbD_zero.symm

theorem cmpW_always_getLsbD (g : Bool) (j : Nat) : (cmpW g kl .always wm a b).getLsbD j = (decide (j < kl) && enabled wm j) := by
  rw [cmpW_getLsbD g hkl, compareLane, Pred.holds_always, Bool.and_true]

/-- A writemask is an AND. -/
theorem cmpW_some (g : Bool) (p : Pred) (m : Mask) : cmpW g kl p (some m) a b = cmpW g kl p none a b &&& m := by
  apply BitVec.eq_of_getLsbD_eq
  intro j _
  rw [BitVec.getLsbD_and, cmpW_getLsbD g hkl, cmpW_getLsbD g hkl, enabled, enabled, Bool.and_true, Bool.and_right_comm]

end

/-- Settles O24: each identity between masks is one between the predicates on two integers. -/
theorem compareIdentities : Obligations.CompareIdentities := by
  intro n kl wm a b hkl
  refine ⟨fun g => cmpW_never hkl wm a b g, fun g j => cmpW_always_getLsbD hkl wm a b g j, fun g q hq => ?_, fun g => ⟨?_, ?_⟩,
    ⟨?_, ?_⟩, fun g => ⟨?_, ?_⟩, fun g p m => cmpW_some hkl a b g p m⟩
  · have hcompl : ∀ x y, q.2.holds x y = !q.1.holds x y := by
      simp only [List.mem_cons, List.not_mem_nil, or_false] at hq
      rcases hq with rfl | rfl | rfl | rfl <;> intro x y <;> rfl
    exact ⟨cmpW_or hkl wm a b fun x y => by rw [hcompl, Bool.or_not_self, Pred.holds_always],
      cmpW_and_eq_zero hkl wm a b fun x y => by rw [hcompl, Bool.and_not_self]⟩
  · refine (cmpW_or hkl wm a b fun x y => ?_).symm
    simp [le_iff_eq_or_lt]
  · refine cmpW_and_eq_zero hkl wm a b fun x y => ?_
    simpa using fun e : x = y => e.ge
  · exact cmpW_congr hkl wm a b fun j => by simp [compareLane, elemValue_inj]
  · exact cmpW_congr hkl wm a b fun j => by simp [compareLane, elemValue_inj]
  · exact cmpW_congr hkl wm b a fun j => by simp [compareLane, ← decide_not]
  · exact cmpW_congr hkl wm b a fun j => by simp [compareLane, ← decide_not]

end Sys2Proof.Machine
end

/-! ## The memory source: its bytes, its admission, and the canonical check (20_memory) -/

section
namespace Sys2Proof.Machine

/-! ### What SRC2 is (20_memory R50, R51, R53) -/

theorem src2Value_reg {o : Operands} {r : Fin 32} (h : o.src2 = .reg r) (vl : VL) (s : State) :
    src2Value vl o s = view vl (s.readV r) := by
  rw [src2Value, h]

theorem src2Value_mem {o : Operands} {m : MemOp} (h : o.src2 = .mem m) (vl : VL) (s : State) :
    src2Value vl o s =
      BitVec.ofNat vl.bits (leValue (dataBytes vl (operandAddress vl o m s) (writemask o.kw s) s)) := by
  rw [src2Value, h]
  rfl

theorem src2Admit_reg {o : Operands} {r : Fin 32} (h : o.src2 = .reg r) (vl : VL) (s : State) : src2Admit vl o s = .ok := by
  rw [src2Admit, h]

theorem src2Admit_mem {o : Operands} {m : MemOp} (h : o.src2 = .mem m) (vl : VL) (s : State) :
    src2Admit vl o s = admitRead vl (operandAddress vl o m s) (defaultSegment m) (writemask o.kw s) s := by
  rw [src2Admit, h]
  rfl

/-- Byte `b` of the operand is answered by ReadOracle, unless its element is masked off under suppression. -/
theorem dataBytes_getD {vl : VL} {wm : Option Mask} {s : State} {b : Nat} (hb : b < vl.bytes)
    (hread : s.cfg.suppressMasked = false ∨ enabled wm (b / 2) = true) (ea : Word) :
    (dataBytes vl ea wm s)[b]?.getD 0 = dataByte ea b s := by
  have hread' : (s.cfg.suppressMasked && !enabled wm (b / 2)) = false := by
    rcases hread with h | h <;> simp [h]
  simp only [dataBytes, List.getElem?_map, List.getElem?_range hb, Option.map_some, Option.getD_some, hread']
  rfl

/-- An element of a memory source that is read is its two bytes, the low one first. -/
theorem element_src2Value_mem {vl : VL} {o : Operands} {m : MemOp} {s : State} {j : Nat} (h : o.src2 = .mem m) (hj : j < vl.lanes)
    (hread : s.cfg.suppressMasked = false ∨ enabled (writemask o.kw s) j = true) :
    element (src2Value vl o s) j =
      dataByte (operandAddress vl o m s) (2 * j + 1) s ++ dataByte (operandAddress vl o m s) (2 * j) s := by
  have hbits := bits_lanes vl
  have hbytes := bytes_lanes vl
  have hlow : 2 * j / 2 = j := by omega
  have hhigh : (2 * j + 1) / 2 = j := by omega
  rw [src2Value_mem h, element_ofNat_leValue _ _ _ (by omega), dataBytes_getD (by omega) (by rwa [hhigh]),
    dataBytes_getD (by omega) (by rwa [hlow])]

theorem dataByte_launchMemory {s : State} (h : s.cfg.readSource = .launchMemory) (ea : Word) (b : Nat) :
    dataByte ea b s = memByte s ea b := by
  rw [dataByte, h]
  rfl

theorem dataByte_oracle {s : State} (h : s.cfg.readSource = .oracle) (ea : Word) (b : Nat) :
    dataByte ea b s = Config.readOracle (s.draws + b) (ea + BitVec.ofNat 64 b) := by
  rw [dataByte, h]

/-- Settles O26: an element that is read is two bytes, each answered on its own by the ReadOracle of the launch. -/
theorem memorySourceLayout : Obligations.MemorySourceLayout := by
  intro vl o m s j hsrc hj hread
  rw [element_src2Value_mem hsrc hj hread]
  refine ⟨fun hlaunch => ?_, fun horacle => ?_⟩
  · rw [dataByte_launchMemory hlaunch, dataByte_launchMemory hlaunch]
  · rw [dataByte_oracle horacle, dataByte_oracle horacle]

/-! ### What MemAdmit is asked (20_memory R61) -/

/-- Under suppression a read is admitted exactly where the two bytes of every enabled element are. -/
theorem admitRead_suppressed_eq_ok {s : State} (h : s.cfg.suppressMasked = true) (vl : VL) (ea : Word) (seg : Segment)
    (wm : Option Mask) :
    admitRead vl ea seg wm s = .ok ↔ ∀ j, j < vl.lanes → enabled wm j = true →
      memAdmit s.cfg.admits ⟨ea + BitVec.ofNat 64 (2 * j), 2, .read, seg, 2 * j⟩ = .ok := by
  rw [admitRead, if_pos h, firstReported_ok]
  simp only [List.forall_mem_map, List.mem_filter, List.mem_range, and_imp]

/-- Settles O27: without suppression one request, with it one for each enabled element. -/
theorem admissionOfTheDataRead : Obligations.AdmissionOfTheDataRead := by
  intro vl o m s hsrc
  rw [src2Admit_mem hsrc]
  refine ⟨fun hoff => ?_, fun hon => admitRead_suppressed_eq_ok hon ..⟩
  rw [admitRead, hoff]
  rfl

/-! ### The canonical check (20_memory R59, R67) -/

theorem applies_touching (base size : Nat) (a : Word) (n : Nat) (kind : AccessKind) (seg : Segment) (off : Nat) :
    Span.applies (.touching base size) ⟨a, n, kind, seg, off⟩ = true ↔
      ∃ b, b < n ∧ base ≤ byteAddr a b ∧ byteAddr a b < base + size := by
  simp only [Span.applies, List.any_eq_true, List.mem_range, Bool.and_eq_true, decide_eq_true_eq]

theorem applies_wrapping (a : Word) (n : Nat) (kind : AccessKind) (seg : Segment) (off : Nat) :
    Span.applies .wrapping ⟨a, n, kind, seg, off⟩ = true ↔ a.toNat < off ∨ 2 ^ 64 < a.toNat + n := by
  simp only [Span.applies, Bool.or_eq_true, decide_eq_true_eq]

/-- The rules of `canonicalRules` for one of its spans. -/
def canonicalSpanRules (sp : Span) : List AdmitRule :=
  [⟨sp, .read, some .stack, .ss⟩, ⟨sp, .read, none, .gp⟩, ⟨sp, .fetch, none, .gp⟩]

theorem canonicalRules_append (bits : Nat) (rules : List AdmitRule) :
    canonicalRules bits ++ rules =
      canonicalSpanRules (.touching (2 ^ (bits - 1)) (2 ^ 64 - 2 ^ bits)) ++ (canonicalSpanRules .wrapping ++ rules) := rfl

/-- The rules of one span answer a read that meets it by the segment, and leave every other read to the rules behind. -/
theorem memAdmit_canonicalSpanRules (sp : Span) (rules : List AdmitRule) (fd rd : AdmitAnswer) {r : Request}
    (hr : r.kind = .read) :
    memAdmit ⟨canonicalSpanRules sp ++ rules, fd, rd⟩ r =
      if Span.applies sp r then (if r.seg = .stack then .ss else .gp) else memAdmit ⟨rules, fd, rd⟩ r := by
  cases hsp : Span.applies sp r with
  | false => simp [memAdmit, canonicalSpanRules, AdmitRule.applies, hsp]
  | true => cases hseg : r.seg <;> simp [memAdmit, canonicalSpanRules, AdmitRule.applies, hsp, hseg, hr]

/-- What makes a read one of `canonicalRules`: a byte in the hole, or one over the top of the address space. -/
def nonCanonical (bits : Nat) (r : Request) : Bool :=
  Span.applies (.touching (2 ^ (bits - 1)) (2 ^ 64 - 2 ^ bits)) r || Span.applies .wrapping r

/-- `canonicalRules` answers a read that meets one of its spans by the segment, and leaves every other read to the table behind. -/
theorem memAdmit_canonicalRules (bits : Nat) (t : AdmitTable) {r : Request} (hr : r.kind = .read) :
    memAdmit { t with rules := canonicalRules bits ++ t.rules } r =
      if nonCanonical bits r then (if r.seg = .stack then .ss else .gp) else memAdmit t r := by
  rw [canonicalRules_append, memAdmit_canonicalSpanRules _ _ _ _ hr, memAdmit_canonicalSpanRules _ _ _ _ hr, nonCanonical]
  cases Span.applies (.touching (2 ^ (bits - 1)) (2 ^ 64 - 2 ^ bits)) r <;> rfl

/-- The address of byte `off + b` of an access that does not run over the top. -/
theorem byteAddr_of_lt {ea : Word} {off b : Nat} (h : ea.toNat + (off + b) < 2 ^ 64) :
    byteAddr (ea + BitVec.ofNat 64 off) b = ea.toNat + (off + b) := by
  rw [byteAddr, BitVec.add_assoc, ← BitVec.ofNat_add]
  exact toNat_add_ofNat h

/-- Where an access begins within the address space, it begins at its place; where it begins beyond the top, it has come round. -/
theorem toNat_add_ofNat_cases (ea : Word) {off : Nat} (hoff : off ≤ 64) :
    (ea + BitVec.ofNat 64 off).toNat = ea.toNat + off ∧ ea.toNat + off < 2 ^ 64 ∨
      (ea + BitVec.ofNat 64 off).toNat < off ∧ 2 ^ 64 ≤ ea.toNat + off := by
  have hea := ea.isLt
  rw [BitVec.toNat_add, BitVec.toNat_ofNat]
  omega

/-- An access runs over the top exactly where `.wrapping` says so (R67). -/
theorem applies_wrapping_iff (ea : Word) {off n : Nat} (seg : Segment) (hn : 0 < n) (hoff : off + n ≤ 64) :
    Span.applies .wrapping ⟨ea + BitVec.ofNat 64 off, n, .read, seg, off⟩ = true ↔ 2 ^ 64 < ea.toNat + off + n := by
  rw [applies_wrapping]
  rcases toNat_add_ofNat_cases ea (show off ≤ 64 by omega) with ⟨heq, hlt⟩ | ⟨hlt, hge⟩
  · simp only [heq]
    omega
  · simp only [hlt, true_or, true_iff]
    omega

/-- The canonical addresses of `bits` address bits (R59), byte `k` of an access at `ea` not over the top (R67). -/
def canonicalByte (bits : Nat) (ea : Word) (k : Nat) : Prop :=
  ea.toNat + k < 2 ^ (bits - 1) ∨ (2 ^ 64 - 2 ^ (bits - 1) ≤ ea.toNat + k ∧ ea.toNat + k < 2 ^ 64)

/-- The rules speak of a read exactly where one of its bytes is not canonical. -/
theorem nonCanonical_iff {bits : Nat} (hbits : bits ∈ [48, 57]) (ea : Word) {off n : Nat} (seg : Segment) (hn : 0 < n)
    (hoff : off + n ≤ 64) :
    nonCanonical bits ⟨ea + BitVec.ofNat 64 off, n, .read, seg, off⟩ = true ↔
      ∃ k, off ≤ k ∧ k < off + n ∧ ¬ canonicalByte bits ea k := by
  have hhole : 2 ^ (bits - 1) + (2 ^ 64 - 2 ^ bits) = 2 ^ 64 - 2 ^ (bits - 1) := by
    revert bits
    decide
  rw [nonCanonical, Bool.or_eq_true, applies_wrapping_iff ea seg hn hoff, applies_touching, hhole]
  unfold canonicalByte
  constructor
  · rintro (⟨b, hb, hlo, hhi⟩ | hwrap)
    · by_cases htop : ea.toNat + (off + b) < 2 ^ 64
      · rw [byteAddr_of_lt htop] at hlo hhi
        exact ⟨off + b, by omega, by omega, by omega⟩
      · exact ⟨off + b, by omega, by omega, by omega⟩
    · exact ⟨off + n - 1, by omega, by omega, by omega⟩
  · rintro ⟨k, hlo, hhi, hk⟩
    by_cases htop : ea.toNat + k < 2 ^ 64
    · refine .inl ⟨k - off, by omega, ?_⟩
      rw [byteAddr_of_lt (by omega)]
      omega
    · exact .inr (by omega)

theorem segmentOfBase_eq_stack (b : Fin 16) : segmentOfBase b = .stack ↔ b = 4 ∨ b = 5 := by
  unfold segmentOfBase
  split <;> simp [*]

/-- Settles O30: the two spans of `canonicalRules` are the hole and the top, and their rules answer by the segment. -/
theorem canonicalCheckMirrorsTheChip : Obligations.CanonicalCheckMirrorsTheChip := by
  refine ⟨fun bits t ea off n seg hbits hn hoff => ⟨fun hbad => ?_, fun hgood => ?_⟩, fun b d => segmentOfBase_eq_stack b,
    fun b ix sc d => segmentOfBase_eq_stack b, fun ix sc d => ⟨rfl, rfl⟩⟩
  · rw [memAdmit_canonicalRules bits t rfl, if_pos ((nonCanonical_iff hbits ea seg hn hoff).2 hbad)]
  · have hno : ¬ nonCanonical bits ⟨ea + BitVec.ofNat 64 off, n, .read, seg, off⟩ = true := fun h => by
      obtain ⟨k, hlo, hhi, hk⟩ := (nonCanonical_iff hbits ea seg hn hoff).1 h
      exact hk (hgood k hlo hhi)
    rw [memAdmit_canonicalRules bits t rfl, if_neg hno]

end Sys2Proof.Machine
end

/-! ## A form's completion, effect and frame, and what it does not read (40 section 2 and 3) -/

section
namespace Sys2Proof.Machine

/-! ### When a form completes, and its effect (R133 to R135) -/

/-- A form that can complete answers `retire` with its mask. -/
theorem exec_of_canComplete {i : Instr} {s : State} (h : canComplete i.form.vl i.operands s = true) :
    exec i s = .next (retire i.form.vl i.operands (resultMask i.form.signed i.form.vl i.operands s) s) := by
  obtain ⟨hstop, hadmit⟩ := (canComplete_iff ..).1 h
  exact (exec_next ..).2 ⟨hstop, hadmit, rfl⟩

theorem canComplete_of_exec {i : Instr} {s t : State} (h : exec i s = .next t) : canComplete i.form.vl i.operands s = true := by
  obtain ⟨hstop, hadmit, -⟩ := (exec_next ..).1 h
  exact (canComplete_iff ..).2 ⟨hstop, hadmit⟩

/-- Settles O33: no check stops a form exactly where `canComplete` holds. -/
theorem completesExactlyWhenReady : Obligations.CompletesExactlyWhenReady :=
  fun _ _ => ⟨fun ⟨_, h⟩ => canComplete_of_exec h, fun h => ⟨_, exec_of_canComplete h⟩⟩

/-- Retiring a form touches one opmask register, `rip` and `draws` only. -/
theorem retire_sameElsewhere (vl : VL) (o : Operands) (m : Mask) (s : State) : SameElsewhere s (retire vl o m s) :=
  ⟨rfl, rfl, rfl, rfl, fun _ => rfl, rfl⟩

/-- What `retire` leaves with the form's mask is the form's effect. -/
theorem retire_formEffect (signed : Bool) (vl : VL) (o : Operands) (s : State) :
    FormEffect signed vl o s (retire vl o (resultMask signed vl o s) s) where
  maskedLane hkw := enabled_writemask_register hkw s
  unmaskedLane hkw j := by rw [hkw, enabled_writemask_zero]
  registerSource r hsrc j hj := by rw [src2Value_reg hsrc, element_view vl _ j hj]
  destination j := by rw [retire_readK_dest, resultMask_getLsbD]
  otherMasks i hi := retire_readK_other s i _ vl o hi
  rip := rfl
  elsewhere := retire_sameElsewhere ..

/-- A form that can complete does, with its effect. -/
theorem exec_effect_of_canComplete {i : Instr} {s : State} (h : canComplete i.form.vl i.operands s = true) :
    ∃ t, exec i s = .next t ∧ FormEffect i.form.signed i.form.vl i.operands s t :=
  ⟨_, exec_of_canComplete h, retire_formEffect ..⟩

/-- Settles O31: the three signed forms share one step. -/
theorem vpcmpwCompletesWithItsEffect : Obligations.VpcmpwCompletesWithItsEffect := fun o _ =>
  ⟨exec_effect_of_canComplete (i := .vpcmpwXmm o), exec_effect_of_canComplete (i := .vpcmpwYmm o),
    exec_effect_of_canComplete (i := .vpcmpwZmm o)⟩

/-- Settles O32: the three unsigned forms share it too. -/
theorem vpcmpuwCompletesWithItsEffect : Obligations.VpcmpuwCompletesWithItsEffect := fun o _ =>
  ⟨exec_effect_of_canComplete (i := .vpcmpuwXmm o), exec_effect_of_canComplete (i := .vpcmpuwYmm o),
    exec_effect_of_canComplete (i := .vpcmpuwZmm o)⟩

/-- A completed form has had its effect. -/
theorem formEffect_of_exec {i : Instr} {s t : State} (h : exec i s = .next t) :
    FormEffect i.form.signed i.form.vl i.operands s t := by
  obtain ⟨-, -, rfl⟩ := (exec_next ..).1 h
  exact retire_formEffect ..

/-- How a completed form has moved ReadOracle's history (log 8). -/
theorem exec_draws {i : Instr} {s t : State} (h : exec i s = .next t) :
    t.draws = s.draws + bytesRead i.form.vl i.operands.src2 := by
  obtain ⟨-, -, rfl⟩ := (exec_next ..).1 h
  rfl

/-- Settles O34: the frame is part of the effect; `draws` moves by what the second source reads. -/
theorem formFrame : Obligations.FormFrame := by
  intro i s t h
  have heff := formEffect_of_exec h
  refine ⟨heff.otherMasks, heff.elsewhere, fun x hsrc => ?_, fun m hsrc => ?_⟩
  · rw [exec_draws h, hsrc, bytesRead, Nat.add_zero]
  · rw [exec_draws h, hsrc, bytesRead]

/-- Settles O23: on one register as both sources every lane compares an element with itself. -/
theorem sameSourceCompare : Obligations.SameSourceCompare := by
  intro i s t hsrc h j
  have heff := formEffect_of_exec h
  rw [heff.destination]
  by_cases hj : j < i.form.vl.lanes
  · rw [heff.registerSource _ hsrc j hj, Pred.holds_self]
  · simp [hj]

/-! ### The stops at the data read (60_exceptions R175 to R177, 20_memory R56) -/

/-- A form that is ready and whose immediate is accepted passes all checks before its operands. -/
theorem formStop_none_of_ready {vl : VL} {imm : BitVec 8} {s : State} (hready : formReady vl s = true)
    (himm : immAccepted imm s.cfg = true) : formStop vl imm s = none := by
  simp only [formReady, Bool.and_eq_true, beq_iff_eq, Bool.not_eq_true'] at hready
  obtain ⟨⟨⟨hmode, hos⟩, hcpuid⟩, hts⟩ := hready
  exact (formStop_eq_none ..).2 ⟨hmode, hos, hcpuid, hts, himm⟩

/-- Past those checks, a read that MemAdmit turns down is what the form answers. -/
theorem exec_of_admitStop {i : Instr} {s : State} {a : AdmitAnswer} {st : Stop}
    (hstop : formStop i.form.vl i.operands.imm8 s = none) (ha : src2Admit i.form.vl i.operands s = a)
    (hst : admitStop a s = some st) : exec i s = st.outcome := by
  simp only [exec_eq_runForm, runForm, hstop, ha, hst]

/-- Settles O40: each answer other than ok is the stop it names. -/
theorem dataReadStops : Obligations.DataReadStops := by
  intro i s hready himm
  have hstop := formStop_none_of_ready hready himm
  exact ⟨fun ha => exec_of_admitStop hstop ha rfl, fun ha => exec_of_admitStop hstop ha rfl,
    fun info ha => exec_of_admitStop hstop ha rfl, fun ha => exec_of_admitStop hstop ha rfl⟩

/-! ### What a form does not read -/

/-- Two states give a form one mask where they enable the same lanes and hold the same elements in the lanes enabled. -/
theorem resultMask_congr {signed : Bool} {vl : VL} {o : Operands} {s s' : State}
    (hwm : ∀ j, j < vl.lanes → enabled (writemask o.kw s') j = enabled (writemask o.kw s) j)
    (h1 : ∀ j, j < vl.lanes → element (s'.readV o.s1) j = element (s.readV o.s1) j)
    (h2 : ∀ j, j < vl.lanes → enabled (writemask o.kw s) j = true →
      element (src2Value vl o s') j = element (src2Value vl o s) j) :
    resultMask signed vl o s' = resultMask signed vl o s := by
  apply BitVec.eq_of_getLsbD_eq
  intro j _
  rw [resultMask_getLsbD, resultMask_getLsbD]
  by_cases hj : j < vl.lanes
  · rw [hwm j hj, h1 j hj]
    cases hen : enabled (writemask o.kw s) j with
    | false => simp
    | true => rw [h2 j hj hen]
  · simp [hj]

/-- A form that completes does so wherever the checks and the admission let it go on too, with the same mask where the mask is the
same. -/
theorem exec_next_of_agree {i : Instr} {s s' t : State}
    (hstop : formStop i.form.vl i.operands.imm8 s = none → formStop i.form.vl i.operands.imm8 s' = none)
    (hadmit : src2Admit i.form.vl i.operands s' = src2Admit i.form.vl i.operands s)
    (hmask : resultMask i.form.signed i.form.vl i.operands s' = resultMask i.form.signed i.form.vl i.operands s)
    (h : exec i s = .next t) :
    exec i s' = .next (retire i.form.vl i.operands (resultMask i.form.signed i.form.vl i.operands s) s') := by
  obtain ⟨hnone, hok, -⟩ := (exec_next ..).1 h
  exact (exec_next ..).2 ⟨hstop hnone, hadmit.trans hok, by rw [hmask]⟩

/-- The checks before the operands look at the configuration only. -/
theorem formStop_none_congr {vl : VL} {imm : BitVec 8} {s s' : State} (hcfg : s'.cfg = s.cfg) (h : formStop vl imm s = none) :
    formStop vl imm s' = none := by
  rw [formStop_eq_none] at h ⊢
  rwa [hcfg]

/-- The second source reads of the writemask register only which lanes are enabled. -/
theorem src2_writeK_writemask {vl : VL} {o : Operands} {s : State} {m : Mask} (hkw : o.kw ≠ 0)
    (hwm : ∀ j, j < vl.lanes → enabled (writemask o.kw (s.writeK o.kw m)) j = enabled (writemask o.kw s) j) :
    src2Admit vl o (s.writeK o.kw m) = src2Admit vl o s ∧ src2Value vl o (s.writeK o.kw m) = src2Value vl o s := by
  have hreads : SameReads 0 s (s.writeK o.kw m) := sameReads_writeK_other hkw.symm s m
  cases hsrc : o.src2 with
  | reg r => exact ⟨by rw [src2Admit_reg hsrc, src2Admit_reg hsrc], by rw [src2Value_reg hsrc, src2Value_reg hsrc]; rfl⟩
  | mem mo =>
    have hea : operandAddress vl o mo (s.writeK o.kw m) = operandAddress vl o mo s := hreads.effectiveAddress_eq ..
    constructor
    · rw [src2Admit_mem hsrc, src2Admit_mem hsrc, hea, hreads.admitRead_eq, admitRead_congr _ _ _ _ _ _ hwm]
    · rw [src2Value_mem hsrc, src2Value_mem hsrc, hea, hreads.dataBytes_eq, dataBytes_congr _ _ _ _ _ hwm]

/-- Settles O19: lanes below KL are enabled as before, and a form looks at no others. -/
theorem writemaskReadBelowLanesOnly : Obligations.WritemaskReadBelowLanesOnly := by
  intro i s t m hkw hm h
  have hwm : ∀ j, j < i.form.vl.lanes →
      enabled (writemask i.operands.kw (s.writeK i.operands.kw m)) j = enabled (writemask i.operands.kw s) j := fun j hj => by
    rw [enabled_writemask_register hkw, enabled_writemask_register hkw, State.readK_writeK_same, hm j hj]
  obtain ⟨hadmit, hvalue⟩ := src2_writeK_writemask hkw hwm
  have hmask : resultMask i.form.signed i.form.vl i.operands (s.writeK i.operands.kw m) =
      resultMask i.form.signed i.form.vl i.operands s :=
    resultMask_congr hwm (fun _ _ => rfl) fun _ _ _ => by rw [hvalue]
  refine ⟨_, exec_next_of_agree (s := s) (formStop_none_congr rfl) hadmit hmask h, ?_⟩
  obtain ⟨-, -, rfl⟩ := (exec_next ..).1 h
  rw [retire_readK_dest, retire_readK_dest]

/-- The address of a memory source depends on general registers and `rip` only. -/
theorem operandAddress_congr {s s' : State} (hg : s'.g = s.g) (hrip : s'.rip = s.rip) (vl : VL) (o : Operands) (m : MemOp) :
    operandAddress vl o m s' = operandAddress vl o m s := by
  have hreadG : ∀ r, s'.readG r = s.readG r := fun r => by rw [State.readG, State.readG, hg]
  have hindex : ∀ ix sc, indexValue ix sc s' = indexValue ix sc s := fun ix sc => by cases ix <;> simp [indexValue, hreadG]
  cases m <;> simp [operandAddress, effectiveAddress, hreadG, hindex, hrip]

/-- Settles O21: the two views of the sources are the same, and a memory source does not look at a vector register. -/
theorem upperSourceBitsNotRead : Obligations.UpperSourceBitsNotRead := by
  intro i s t v' hv h
  have hview : ∀ r, view i.form.vl (State.readV { s with v := v' } r) = view i.form.vl (s.readV r) := hv
  have hadmit : src2Admit i.form.vl i.operands { s with v := v' } = src2Admit i.form.vl i.operands s := by
    cases hsrc : i.operands.src2 with
    | reg r => rw [src2Admit_reg hsrc, src2Admit_reg hsrc]
    | mem m =>
      rw [src2Admit_mem hsrc, src2Admit_mem hsrc, operandAddress_congr (s := s) rfl rfl]
      rfl
  have hvalue : src2Value i.form.vl i.operands { s with v := v' } = src2Value i.form.vl i.operands s := by
    cases hsrc : i.operands.src2 with
    | reg r => rw [src2Value_reg hsrc, src2Value_reg hsrc, hview]
    | mem m =>
      rw [src2Value_mem hsrc, src2Value_mem hsrc, operandAddress_congr (s := s) rfl rfl]
      rfl
  have hmask : resultMask i.form.signed i.form.vl i.operands { s with v := v' } =
      resultMask i.form.signed i.form.vl i.operands s := by
    rw [resultMask, resultMask, hview, hvalue]
    rfl
  rw [exec_next_of_agree (s := s) (s' := { s with v := v' }) (formStop_none_congr rfl) hadmit hmask h]
  obtain ⟨-, -, rfl⟩ := (exec_next ..).1 h
  rfl

/-- The admission of a read does not depend on memory. -/
theorem src2Admit_mem_irrelevant (vl : VL) (o : Operands) (s : State) (mem' : List Host.Cell) :
    src2Admit vl o { s with mem := mem' } = src2Admit vl o s := by
  cases hsrc : o.src2 with
  | reg r => rw [src2Admit_reg hsrc, src2Admit_reg hsrc]
  | mem m =>
    rw [src2Admit_mem hsrc, src2Admit_mem hsrc, operandAddress_congr (s := s) rfl rfl]
    rfl

/-- A byte of a read depends on memory at its own address only. -/
theorem dataByte_congr_mem {s : State} {mem' : List Host.Cell} {ea : Word} {b : Nat}
    (h : memByte { s with mem := mem' } ea b = memByte s ea b) : dataByte ea b { s with mem := mem' } = dataByte ea b s := by
  cases hsource : s.cfg.readSource with
  | launchMemory => rw [dataByte_launchMemory hsource, dataByte_launchMemory (s := { s with mem := mem' }) hsource, h]
  | oracle => rw [dataByte_oracle hsource, dataByte_oracle (s := { s with mem := mem' }) hsource]

/-- Settles O28: an enabled element is its own two bytes, and no other element reaches the mask. -/
theorem maskedOffBytesNeverMatter : Obligations.MaskedOffBytesNeverMatter := by
  intro i m s t mem' hsrc hbytes h
  have hmask : resultMask i.form.signed i.form.vl i.operands { s with mem := mem' } =
      resultMask i.form.signed i.form.vl i.operands s := by
    refine resultMask_congr (fun _ _ => rfl) (fun _ _ => rfl) fun j hj hen => ?_
    have hlanes := bytes_lanes i.form.vl
    have hbyte : ∀ b, b / 2 = j → dataByte (operandAddress i.form.vl i.operands m s) b { s with mem := mem' } =
        dataByte (operandAddress i.form.vl i.operands m s) b s :=
      fun b hb => dataByte_congr_mem (hbytes b (by omega) (by rw [hb, hen]))
    rw [element_src2Value_mem (s := { s with mem := mem' }) hsrc hj (.inr hen), element_src2Value_mem hsrc hj (.inr hen),
      operandAddress_congr (s := s) (s' := { s with mem := mem' }) rfl rfl, hbyte (2 * j + 1) (by omega), hbyte (2 * j) (by omega)]
  rw [exec_next_of_agree (s := s) (s' := { s with mem := mem' }) (formStop_none_congr rfl) (src2Admit_mem_irrelevant ..) hmask h]
  obtain ⟨-, -, rfl⟩ := (exec_next ..).1 h
  rfl

/-- The checks before the operands look neither at MemAdmit nor at ReadOracle. -/
theorem formStop_none_access {vl : VL} {imm : BitVec 8} {s : State} (h : formStop vl imm s = none) (mem' : List Host.Cell)
    (admits' : AdmitTable) (src' : ReadSource) :
    formStop vl imm { s with mem := mem', cfg := { s.cfg with admits := admits', readSource := src' } } = none := by
  rw [formStop_eq_none] at h ⊢
  exact h

/-- Settles O29: a register form's second source is a view, and its read is admitted without asking. -/
theorem registerFormsMakeNoAccess : Obligations.RegisterFormsMakeNoAccess := by
  intro i r s t mem' admits' src' hsrc h
  have hmask : resultMask i.form.signed i.form.vl i.operands
      { s with mem := mem', cfg := { s.cfg with admits := admits', readSource := src' } } =
      resultMask i.form.signed i.form.vl i.operands s := by
    rw [resultMask, resultMask, src2Value_reg hsrc, src2Value_reg hsrc]
    rfl
  have hadmit : src2Admit i.form.vl i.operands
      { s with mem := mem', cfg := { s.cfg with admits := admits', readSource := src' } } = src2Admit i.form.vl i.operands s := by
    rw [src2Admit_reg hsrc, src2Admit_reg hsrc]
  rw [exec_next_of_agree (fun hstop => formStop_none_access hstop _ _ _) hadmit hmask h]
  obtain ⟨-, -, rfl⟩ := (exec_next ..).1 h
  rfl

end Sys2Proof.Machine
end

/-! ## The step: what it runs, what stops it, and what every step keeps (10_state, 60_exceptions) -/

section
namespace Sys2Proof.Machine

/-! ### Exceptions (60_exceptions R172) -/

/-- Settles O41: the table of R172, one line for each kind of fault. -/
theorem exceptionVectors : Obligations.ExceptionVectors :=
  ⟨fun _ _ => ⟨rfl, rfl⟩, fun _ => ⟨rfl, rfl⟩, fun _ => ⟨rfl, rfl⟩, fun _ => ⟨rfl, rfl⟩, fun _ _ => ⟨rfl, rfl⟩,
    fun f => by cases f <;> simp [Fault.vector]⟩

/-! ### What a step runs -/

theorem step_of_fetch_ok {s : State} {i : Instr} (h : fetch s = .ok i) : step s = exec i s := by
  rw [step, h]

theorem step_of_fetch_error {s : State} {st : Stop} (h : fetch s = .error st) : step s = st.outcome := by
  rw [step, h]

/-- A step runs the instruction at `rip` where its bytes are admitted and do not reach the top (R60, R28). -/
theorem step_eq_exec {s : State} {i : Instr} {n : Nat} (hmode : s.cfg.mode = .bits64) (hdec : decode (window s) = .instr i n)
    (hadmit : memAdmit s.cfg.admits ⟨s.rip, n, .fetch, .other, 0⟩ = .ok) (htop : s.rip.toNat + n < 2 ^ 64) :
    step s = exec i s :=
  step_of_fetch_ok ((fetch_ok s i).2 ⟨hmode, n, hdec, hadmit, htop⟩)

/-- Settles O42: what the decoder hands out is well formed, and a fetch that goes through hands it to `exec`. -/
theorem stepRunsTheDecodedInstr : Obligations.StepRunsTheDecodedInstr :=
  fun s i n hmode hdec hadmit htop => ⟨(decodedInstrIsWellFormed (window s) i n hdec).1, step_eq_exec hmode hdec hadmit htop⟩

/-! ### What stops a step (R8, R60, R99, R181) -/

/-- In another mode no form runs (R8). -/
theorem exec_of_mode {s : State} (hmode : s.cfg.mode ≠ .bits64) (i : Instr) : exec i s = .refused (.mode s.cfg.mode) :=
  exec_of_formStop (st := .refuse (.mode s.cfg.mode)) (if_pos hmode)

/-- In another mode nothing is fetched (R8). -/
theorem step_of_mode {s : State} (hmode : s.cfg.mode ≠ .bits64) : step s = .refused (.mode s.cfg.mode) :=
  step_of_fetch_error (st := .refuse (.mode s.cfg.mode)) (if_pos hmode)

/-- In 64-bit mode the fetch is stopped before the decoder's verdict counts. -/
theorem step_of_fetchStop {s : State} {st : Stop} (hmode : s.cfg.mode = .bits64)
    (h : fetchStop (decode (window s)).consumed s = some st) : step s = st.outcome :=
  step_of_fetch_error (by rw [fetch, if_neg (not_not.2 hmode), h])

/-- Where the fetch goes through, a verdict that is no instruction is what stops the step. -/
theorem step_of_verdict {s : State} {st : Stop} (hmode : s.cfg.mode = .bits64)
    (hfetch : fetchStop (decode (window s)).consumed s = none) (h : verdict (decode (window s)) s = .error st) :
    step s = st.outcome :=
  step_of_fetch_error (by rw [fetch, if_neg (not_not.2 hmode), hfetch, h])

/-- A fetch that MemAdmit turns down is stopped by its answer. -/
theorem fetchStop_of_admitStop {s : State} {n : Nat} {a : AdmitAnswer} {st : Stop}
    (ha : memAdmit s.cfg.admits ⟨s.rip, n, .fetch, .other, 0⟩ = a) (hst : admitStop a s = some st) :
    fetchStop n s = some st := by
  rw [fetchStop, ha, hst]

/-- An admitted fetch that reaches the top of the address space is refused (R28). -/
theorem fetchStop_of_wrap {s : State} {n : Nat} (ha : memAdmit s.cfg.admits ⟨s.rip, n, .fetch, .other, 0⟩ = .ok)
    (htop : 2 ^ 64 ≤ s.rip.toNat + n) : fetchStop n s = some (.refuse .ripWouldWrap) := by
  rw [fetchStop, ha]
  exact if_pos htop

/-- Settles O43: mode, MemAdmit's answer to the fetch, the top of the address space, and the decoder's verdict, in this order. -/
theorem orderOfStops : Obligations.OrderOfStops := by
  intro s n answer
  refine ⟨fun hmode => ⟨step_of_mode hmode, exec_of_mode hmode⟩, fun hmode => ?_⟩
  have hanswer : ∀ {a st}, answer = a → admitStop a s = some st → step s = st.outcome := fun ha hst =>
    step_of_fetchStop hmode (fetchStop_of_admitStop ha hst)
  refine ⟨fun ha => hanswer ha rfl, fun ha => hanswer ha rfl, fun info ha => hanswer ha rfl, fun ha => hanswer ha rfl,
    fun ha => hanswer ha rfl, fun ha htop => step_of_fetchStop hmode (fetchStop_of_wrap ha htop), fun ha htop => ?_⟩
  have hfetch : fetchStop n s = none := (fetchStop_eq_none n s).2 ⟨ha, htop⟩
  exact ⟨fun c m hdec => step_of_verdict (st := takeException (.ud c) s) hmode hfetch (by rw [hdec, verdict]),
    fun r m hdec => step_of_verdict (st := .refuse (.encoding r)) hmode hfetch (by rw [hdec, verdict])⟩

/-! ### Faults report the faulting rip (R185, R186) -/

/-- A stop that, if it is a fault, reports the `rip` of `s`. -/
def Stop.ReportsRip (s : State) (st : Stop) : Prop := ∀ f, st.outcome = .fault f → f.rip = s.rip

theorem Stop.reportsRip_takeException (e : Exception) (s : State) : (takeException e s).ReportsRip s :=
  fun _ hf => takeException_rip e s _ hf

theorem Stop.reportsRip_refuse (r : Refusal) (s : State) : (Stop.refuse r).ReportsRip s := fun _ hf => nomatch hf

theorem admitStop_reportsRip {a : AdmitAnswer} {s : State} {st : Stop} (h : admitStop a s = some st) : st.ReportsRip s :=
  fun f hf => admitStop_rip a s st f h hf

theorem formStop_reportsRip {vl : VL} {imm : BitVec 8} {s : State} {st : Stop} (h : formStop vl imm s = some st) :
    st.ReportsRip s := by
  unfold formStop at h
  split_ifs at h <;> obtain rfl := Option.some.inj h
  · exact Stop.reportsRip_refuse _ _
  · exact Stop.reportsRip_takeException _ _
  · exact Stop.reportsRip_takeException _ _
  · exact Stop.reportsRip_takeException _ _
  · exact Stop.reportsRip_refuse _ _

theorem fetchStop_reportsRip {n : Nat} {s : State} {st : Stop} (h : fetchStop n s = some st) : st.ReportsRip s := by
  unfold fetchStop at h
  split at h
  next st' hst =>
    obtain rfl := Option.some.inj h
    exact admitStop_reportsRip hst
  next =>
    split at h
    · obtain rfl := Option.some.inj h
      exact Stop.reportsRip_refuse _ _
    · cases h

theorem verdict_reportsRip {d : Decoded} {s : State} {st : Stop} (h : verdict d s = .error st) : st.ReportsRip s := by
  cases d with
  | instr i n => cases h
  | ud c n =>
    obtain rfl := Except.error.inj h
    exact Stop.reportsRip_takeException _ _
  | refuse r n =>
    obtain rfl := Except.error.inj h
    exact Stop.reportsRip_refuse _ _

theorem fetch_reportsRip {s : State} {st : Stop} (h : fetch s = .error st) : st.ReportsRip s := by
  unfold fetch at h
  split at h
  · obtain rfl := Except.error.inj h
    exact Stop.reportsRip_refuse _ _
  · split at h
    next st' hst =>
      obtain rfl := Except.error.inj h
      exact fetchStop_reportsRip hst
    next => exact verdict_reportsRip h

/-- A form that ends in a fault reports its own address. -/
theorem exec_fault_rip {i : Instr} {s : State} {f : Fault} (h : exec i s = .fault f) : f.rip = s.rip := by
  rw [exec_eq_runForm, runForm] at h
  split at h
  next st hst => exact formStop_reportsRip hst f h
  next =>
    split at h
    next st hst => exact admitStop_reportsRip hst f h
    next => cases h

/-- Settles O44: a fault is raised by the fetch, by the decoder's verdict or by the form, and each reports `rip`. -/
theorem faultsReportTheFaultingRip : Obligations.FaultsReportTheFaultingRip := by
  intro s f h
  cases hf : fetch s with
  | ok i => exact exec_fault_rip ((step_of_fetch_ok hf).symm.trans h)
  | error st => exact fetch_reportsRip hf f ((step_of_fetch_error hf).symm.trans h)

/-! ### The frame and the invariant -/

/-- A form's mask has bits 63:32 clear, since KL is at most 32 (40 R134). -/
theorem resultMask_toNat_lt (signed : Bool) (vl : VL) (o : Operands) (s : State) : (resultMask signed vl o s).toNat < 2 ^ 32 :=
  Nat.lt_pow_two_of_testBit _ fun _ hj => resultMask_getLsbD_of_lanes_le signed o s (le_trans (lanes_le32 vl) hj)

/-- The destination of a completed form has bits 63:32 clear. -/
theorem exec_dest_toNat_lt {i : Instr} {s t : State} (h : exec i s = .next t) : (t.readK i.operands.kd).toNat < 2 ^ 32 := by
  obtain ⟨-, -, rfl⟩ := (exec_next ..).1 h
  rw [retire_readK_dest]
  exact resultMask_toNat_lt ..

theorem exec_mem {i : Instr} {s t : State} (h : exec i s = .next t) : t.mem = s.mem := by
  obtain ⟨-, -, rfl⟩ := (exec_next ..).1 h
  rfl

/-- Settles O46: a completed step is a completed form. -/
theorem stepFrame : Obligations.StepFrame := by
  intro s t h
  obtain ⟨i, -, -, -, -, -, hexec⟩ := step_next s t h
  have heff := formEffect_of_exec hexec
  exact ⟨heff.elsewhere, i.operands.kd, exec_dest_toNat_lt hexec, heff.otherMasks⟩

/-- Settles O47: a completed step leaves memory, and every opmask register but one, whose bits 63:32 it clears. -/
theorem stepKeepsInv : Obligations.StepKeepsInv := by
  rintro s t ⟨hwf, hmasks⟩ h
  obtain ⟨i, -, -, -, -, -, hexec⟩ := step_next s t h
  refine ⟨by rw [exec_mem hexec, hwf], fun r => ?_⟩
  by_cases hr : r = i.operands.kd
  · rw [hr]
    exact exec_dest_toNat_lt hexec
  · rw [(formEffect_of_exec hexec).otherMasks r hr]
    exact hmasks r

/-! ### Reset and power-up (70 R210, R211) -/

section
variable (k : Mask) (v : Vec) (g : Word)

theorem readK_replicate {s : State} (h : s.k = Vector.replicate 8 k) (i : Fin 8) : s.readK i = k := by simp [State.readK, h]
theorem readV_replicate {s : State} (h : s.v = Vector.replicate 32 v) (i : Fin 32) : s.readV i = v := by simp [State.readV, h]
theorem readG_replicate {s : State} (h : s.g = Vector.replicate 16 g) (i : Fin 16) : s.readG i = g := by simp [State.readG, h]

end

/-- Settles O48: memory lists nothing, and every opmask register is 0. -/
theorem resetHasInv : Obligations.ResetHasInv :=
  ⟨rfl, fun i => by rw [readK_replicate 0 rfl i]; decide⟩

/-- Settles O49: registers are filled with 0, and an empty memory reads as 0. -/
theorem resetValues : Obligations.ResetValues :=
  ⟨readK_replicate 0 rfl, readV_replicate 0 rfl, readG_replicate 0 rfl, rfl, Memory.read_nil, rfl, rfl, rfl⟩

/-- Settles O55: real-address mode stops the fetch; in 64-bit mode the state is not enabled. -/
theorem powerUpRunsNoForm : Obligations.PowerUpRunsNoForm :=
  ⟨readK_replicate 0 rfl, readV_replicate 0 rfl, readG_replicate 0 rfl, rfl, rfl, rfl, step_of_mode (by decide),
    fun _ => exec_of_formStop (formStop_osDisabled _ _ rfl rfl)⟩

/-! ### Bytes in memory at rip (30_encoding section 1, 70 R215) -/

theorem window_getElem (s : State) {j : Nat} (hj : j < (window s).length) :
    (window s)[j] = Memory.read s.mem (byteAddr s.rip j) := by
  simp [window]

theorem window_length (s : State) : (window s).length = 12 := by simp [window, maxLength]

/-- Where the bytes of an instruction stand at `rip`, the bytes fetched begin with them. -/
theorem window_of_bytes {s : State} {i : Instr}
    (hmem : ∀ j (h : j < (encode i).length), Memory.read s.mem (byteAddr s.rip j) = (encode i)[j]) :
    window s = encode i ++ (window s).drop i.length := by
  have hlen := window_length s
  have henc := encode_length i
  obtain ⟨-, hmax⟩ : 7 ≤ i.length ∧ i.length ≤ 12 := Laws.length_range i.operands
  conv_lhs => rw [← List.take_append_drop i.length (window s)]
  congr 1
  refine List.ext_getElem (by rw [List.length_take]; omega) fun j _ hj => ?_
  rw [List.getElem_take, window_getElem, hmem j hj]

/-- Where the bytes of a well-formed instruction stand at `rip` and their fetch goes through, the step is the instruction. -/
theorem step_eq_exec_of_bytes {s : State} {i : Instr} (hi : i.wellFormed = true) (hmode : s.cfg.mode = .bits64)
    (hmem : ∀ j (h : j < (encode i).length), Memory.read s.mem (byteAddr s.rip j) = (encode i)[j])
    (hadmit : memAdmit s.cfg.admits ⟨s.rip, i.length, .fetch, .other, 0⟩ = .ok) (htop : s.rip.toNat + i.length < 2 ^ 64) :
    step s = exec i s :=
  step_eq_exec hmode (by rw [window_of_bytes hmem, decode_encode hi]) hadmit htop

/-- A form that can complete is in 64-bit mode. -/
theorem mode_of_canComplete {vl : VL} {o : Operands} {s : State} (h : canComplete vl o s = true) : s.cfg.mode = .bits64 :=
  ((formStop_eq_none ..).1 ((canComplete_iff ..).1 h).1).1

/-- Settles O50: the bytes decode to the instruction, which the step runs, and which has its effect. -/
theorem encodedInstructionTakesEffect : Obligations.EncodedInstructionTakesEffect := by
  intro i s hi hmem hadmit htop hcan
  obtain ⟨t, hexec, heff⟩ := exec_effect_of_canComplete hcan
  refine ⟨t, by rw [step_eq_exec_of_bytes hi (mode_of_canComplete hcan) hmem hadmit htop, hexec], heff, ?_⟩
  rw [exec_rip hexec, toNat_add_ofNat htop]

theorem placeText_rip (s : State) (bs : List Byte) : (placeText s bs).rip = s.rip := by
  unfold placeText
  dsimp only
  split <;> rfl

theorem placeText_mode (s : State) (bs : List Byte) : (placeText s bs).cfg.mode = s.cfg.mode := by
  unfold placeText
  dsimp only
  split <;> rfl

theorem tableBytes_length (nbits w : Nat) : (tableBytes nbits w).length = 12 := by simp [tableBytes, maxLength]

theorem decode_tableBytes {nbits w : Nat} {i : Instr} (h : decodeTableWord nbits w = some i) :
    ∃ n, decode (tableBytes nbits w) = .instr i n := by
  unfold decodeTableWord at h
  split at h
  next j n hdec => exact ⟨n, Option.some.inj h ▸ hdec⟩
  next => cases h

/-- Settles O51: the placed bytes are the bytes fetched, their fetch is admitted, and 12 bytes do not reach the top. -/
theorem placedInstructionRuns : Obligations.PlacedInstructionRuns := by
  intro s nbits w i hwf hmode htop hi
  obtain ⟨n, hdec⟩ := decode_tableBytes hi
  obtain ⟨-, -, -, hmin, hmax⟩ := decodedInstrIsWellFormed _ i n hdec
  refine step_eq_exec ((placeText_mode ..).trans hmode) (n := n) ?_ (placeText_admits s _ n (by omega) hmax) ?_
  · rw [State.withFetchWord, window_placeText s _ (tableBytes_length nbits w) hwf, hdec]
  · rw [State.withFetchWord, placeText_rip]
    omega

end Sys2Proof.Machine
end

/-! ## Programs: the straight line, its end, and runs that stop (70 R215) -/

section
namespace Sys2Proof.Machine

theorem SameElsewhere.refl (s : State) : SameElsewhere s s := ⟨rfl, rfl, rfl, rfl, fun _ => rfl, rfl⟩

theorem SameElsewhere.trans {s t u : State} (h : SameElsewhere s t) (h' : SameElsewhere t u) : SameElsewhere s u where
  vectors := h'.vectors.trans h.vectors
  general := h'.general.trans h.general
  eflags := h'.eflags.trans h.eflags
  mxcsr := h'.mxcsr.trans h.mxcsr
  memory a := (h'.memory a).trans (h.memory a)
  config := h'.config.trans h.config

/-- The instructions before the n-th end within the program. -/
theorem codeSize_take_le (code : List Instr) (n : Nat) : codeSize (code.take n) ≤ codeSize code := by
  conv_rhs => rw [← List.take_append_drop n code, codeSize_append]
  exact Nat.le_add_right ..

/-- They take the whole of it only where they are all of it. -/
theorem codeSize_take_eq_iff {code : List Instr} {n : Nat} (hn : n ≤ code.length) :
    codeSize (code.take n) = codeSize code ↔ n = code.length := by
  refine ⟨fun heq => ?_, fun heq => by rw [heq, List.take_length]⟩
  by_contra hne
  have hget : code[n]? = some code[n] := List.getElem?_eq_getElem (by omega)
  obtain ⟨hmin, -⟩ : 7 ≤ code[n].length ∧ code[n].length ≤ 12 := Laws.length_range code[n].operands
  have := codeSize_split hget
  omega

theorem launch_mode (p : Program) (s : State) : (p.launch s).cfg.mode = s.cfg.mode := rfl

/-- `t` is where the run of `p` from its launch over `s` stands after `n` instructions. -/
structure Program.At (p : Program) (s : State) (n : Nat) (t : State) : Prop where
  rip : t.rip.toNat = p.base.toNat + codeSize (p.code.take n)
  elsewhere : SameElsewhere (p.launch s) t

/-- The premises on a program and on the state it is launched over. -/
structure Program.Launchable (p : Program) (s : State) : Prop where
  wellFormed : ∀ i ∈ p.code, i.wellFormed = true
  memory : Memory.wf s.mem = true
  mode : s.cfg.mode = .bits64
  top : p.base.toNat + p.size < 2 ^ 64

namespace Program.At

variable {p : Program} {s t : State} {n : Nat} (hp : p.Launchable s) (h : p.At s n t)
include hp h

/-- At the n-th instruction the next step runs it: its bytes stand there and lie within the text. -/
theorem step_eq {i : Instr} (hi : p.code[n]? = some i) : step t = exec i t := by
  have htop := hp.top
  have hsize : p.size = codeSize (p.code.take n) + i.length + codeSize (p.code.drop (n + 1)) := codeSize_split hi
  obtain ⟨hmin, -⟩ : 7 ≤ i.length ∧ i.length ≤ 12 := Laws.length_range i.operands
  have hrip := h.rip
  refine step_eq_exec_of_bytes (hp.wellFormed i (List.mem_of_getElem? hi)) ?_ (fun j hj => ?_) ?_ (by omega)
  · rw [h.elsewhere.config, launch_mode, hp.mode]
  · have haddr : byteAddr t.rip j = byteAddr p.base (codeSize (p.code.take n) + j) := by
      rw [encode_length] at hj
      rw [byteAddr, byteAddr, toNat_add_ofNat (by omega), toNat_add_ofNat (by omega)]
      omega
    rw [h.elsewhere.memory, haddr, launch_read hp.memory (by omega) hi hj]
  · rw [h.elsewhere.config]
    exact textRules_admits p s t.rip i.length .other (by omega) (by omega) (by omega) htop

/-- A completed step goes on to the next instruction. -/
theorem succ {i : Instr} {u : State} (hi : p.code[n]? = some i) (hu : step t = .next u) : p.At s (n + 1) u := by
  have htop := hp.top
  have hsize : p.size = codeSize (p.code.take n) + i.length + codeSize (p.code.drop (n + 1)) := codeSize_split hi
  have hrip := h.rip
  rw [h.step_eq hp hi] at hu
  refine ⟨?_, h.elsewhere.trans (formEffect_of_exec hu).elsewhere⟩
  rw [exec_rip hu, toNat_add_ofNat (by omega), codeSize_take_succ hi]
  omega

/-- A run has ended exactly after the program's last instruction. -/
theorem ended_iff (hn : n ≤ p.code.length) : p.ended t = true ↔ n = p.code.length := by
  have htop := hp.top
  have hrip := h.rip
  have hend : p.endAddr.toNat = p.base.toNat + p.size := toNat_add_ofNat htop
  rw [Program.ended, beq_iff_eq, ← BitVec.toNat_inj, hrip, hend, Nat.add_left_cancel_iff]
  exact codeSize_take_eq_iff hn

/-- At the end a step fetches outside the declared text. -/
theorem step_end (hn : n = p.code.length) : step t = .refused .outsideText := by
  have hrip : t.rip.toNat = p.base.toNat + p.size := by
    rw [h.rip, hn, List.take_length]
    rfl
  refine step_of_fetchStop (st := .refuse .outsideText) (by rw [h.elsewhere.config, launch_mode, hp.mode])
    (fetchStop_of_admitStop (a := .outsideText) ?_ rfl)
  rw [h.elsewhere.config]
  exact textRules_end p s t.rip _ .other (consumed_pos t) hrip

end Program.At

/-- The launch stands at the first instruction. -/
theorem Program.at_launch (p : Program) (s : State) : p.At s 0 (p.launch s) :=
  ⟨rfl, SameElsewhere.refl _⟩

theorem run_zero (p : Program) (s : State) : p.run 0 s = .next s := rfl

/-- A run that has not ended takes one step more. -/
theorem run_succ_of_next {p : Program} {n : Nat} {s t : State} (h : p.run n s = .next t) :
    p.run (n + 1) s = if p.ended t then .next t else step t := by
  rw [run_succ, h]

/-- A run that has stopped stays stopped. -/
theorem run_succ_of_fault {p : Program} {n : Nat} {s : State} {f : Fault} (h : p.run n s = .fault f) :
    p.run (n + 1) s = .fault f := by
  rw [run_succ, h]

theorem run_succ_of_refused {p : Program} {n : Nat} {s : State} {r : Refusal} (h : p.run n s = .refused r) :
    p.run (n + 1) s = .refused r := by
  rw [run_succ, h]

/-- Before its end a run that answers a next state after one step more has answered one before it, and that step has completed. -/
theorem run_succ_next {p : Program} {n : Nat} {s u : State} (h : p.run (n + 1) s = .next u) :
    ∃ t, p.run n s = .next t ∧ (p.ended t = false → step t = .next u) := by
  cases hrun : p.run n s with
  | next t =>
    rw [run_succ_of_next hrun] at h
    exact ⟨t, rfl, fun hend => by rwa [hend] at h⟩
  | fault f => cases (run_succ_of_fault hrun).symm.trans h
  | refused r => cases (run_succ_of_refused hrun).symm.trans h

section
variable {p : Program} {s : State} (hp : p.Launchable s)
include hp

/-- After `n` completed steps a run stands at the n-th instruction. -/
theorem Program.at_of_run : ∀ {n : Nat} {t : State}, n ≤ p.code.length → p.run n (p.launch s) = .next t → p.At s n t
  | 0, t, _, h => by
    obtain rfl := Host.Outcome.next.inj ((run_zero ..).symm.trans h)
    exact p.at_launch s
  | n + 1, u, hn, h => by
    obtain ⟨t, hrun, hstep⟩ := run_succ_next h
    have hat := at_of_run (by omega) hrun
    have hnot : p.ended t = false := by
      rw [Bool.eq_false_iff, Ne, hat.ended_iff hp (by omega)]
      omega
    exact hat.succ hp (List.getElem?_eq_getElem (by omega)) (hstep hnot)

/-- Where every instruction can complete wherever the run may reach it, the run takes every number of steps up to the program's
length. -/
theorem Program.run_next_of_canComplete
    (hcan : ∀ i ∈ p.code, ∀ t, SameElsewhere (p.launch s) t → canComplete i.form.vl i.operands t = true) :
    ∀ {n : Nat}, n ≤ p.code.length → ∃ t, p.run n (p.launch s) = .next t
  | 0, _ => ⟨_, run_zero ..⟩
  | n + 1, hn => by
    obtain ⟨t, hrun⟩ := run_next_of_canComplete hcan (n := n) (by omega)
    have hat := Program.at_of_run hp (by omega) hrun
    have hi : p.code[n]? = some p.code[n] := List.getElem?_eq_getElem (by omega)
    have hnot : ¬ p.ended t = true := by
      rw [hat.ended_iff hp (by omega)]
      omega
    rw [run_succ_of_next hrun, if_neg hnot, hat.step_eq hp hi]
    exact ⟨_, exec_of_canComplete (hcan _ (List.mem_of_getElem? hi) t hat.elsewhere)⟩

end

/-- Settles O52: by induction on the number of steps a run stands at its n-th instruction, whose bytes are those of the text. -/
theorem straightLineRunAdvances : Obligations.StraightLineRunAdvances := by
  intro p s hwf hmem hmode htop n t hn hrun
  have hp : p.Launchable s := ⟨hwf, hmem, hmode, htop⟩
  have hat := Program.at_of_run hp hn hrun
  exact ⟨hat.rip, hat.elsewhere, hat.ended_iff hp hn, fun i hi => hat.step_eq hp hi, hat.step_end hp⟩

theorem finalState_of_next {p : Program} {s t : State} (h : p.run p.code.length s = .next t) (hend : p.ended t = true) :
    p.finalState s = some t := by
  rw [Program.finalState, h]
  exact if_pos hend

/-- Settles O53: no step on the line stops, and after the last one `rip` is at the end. -/
theorem straightLineRunEnds : Obligations.StraightLineRunEnds := by
  intro p s hwf hmem hmode htop hcan
  have hp : p.Launchable s := ⟨hwf, hmem, hmode, htop⟩
  obtain ⟨t, hrun⟩ := Program.run_next_of_canComplete hp hcan le_rfl
  have hat := Program.at_of_run hp le_rfl hrun
  have hend : p.ended t = true := (hat.ended_iff hp le_rfl).2 rfl
  exact ⟨t, finalState_of_next hrun hend, by simpa [Program.ended] using hend, hat.elsewhere⟩

/-- A stop within a number of steps is the stop within any greater number. -/
theorem run_fault_of_le {p : Program} {s : State} {f : Fault} {m n : Nat} (hmn : m ≤ n) (h : p.run m s = .fault f) :
    p.run n s = .fault f := by
  induction n, hmn using Nat.le_induction with
  | base => exact h
  | succ n _ ih => exact run_succ_of_fault ih

theorem run_refused_of_le {p : Program} {s : State} {r : Refusal} {m n : Nat} (hmn : m ≤ n) (h : p.run m s = .refused r) :
    p.run n s = .refused r := by
  induction n, hmn using Nat.le_induction with
  | base => exact h
  | succ n _ ih => exact run_succ_of_refused ih

/-- Settles O54: a stopped run stays stopped up to the number of steps that `finalState` looks at. -/
theorem stoppedRunHasNoFinalState : Obligations.StoppedRunHasNoFinalState := by
  intro p s n hn
  refine ⟨fun f h => ?_, fun r h => ?_⟩
  · rw [Program.finalState, run_fault_of_le hn h]
  · rw [Program.finalState, run_refused_of_le hn h]

end Sys2Proof.Machine
end
